-- ==== Sys2Proof/Word.lean ====
section
/-! DEFINITION. The words of the SLCAN codec block: the widths of rule R61 and rule R63 (30_encoding.md)
given short names, and nothing else. Every value is unsigned (rule R194). -/

namespace Sys2Proof

/-- One byte (rule R7: a byte is 8 bits). -/
abbrev Byte := BitVec 8

/-- A hexadecimal digit's value, 0..15 (rule R68). -/
abbrev Nibble := BitVec 4

/-- An 11-bit CAN identifier, and any port of that width (`ID_BITS`, rule R6; rule R61). -/
abbrev Ident := BitVec 11

/-- A length on a 4-bit port (`len_in`, `frm_len`; rules R61 and R63). -/
abbrev Len := BitVec 4

/-- A 64-bit payload bus: payload byte `k` stands in bits `8k+7 : 8k` (rule R62). -/
abbrev Bus := BitVec 64

/-- A 32-bit word: a binary32 bit pattern, moved bit for bit (rule R195). -/
abbrev Word32 := BitVec 32

end Sys2Proof
end

