-- ==== Sys2Proof/Config.lean ====
section
/-! DEFINITION. The implementation parameters of rule R6 (00_scope.md), each at the value this hardware takes.
They are fixed in the hardware (rule R263, decision D19): there is no configuration register. The numeric
literals of the classes and codes are the spec's, and it calls them unaudited (91_not_in_source.md N1). -/

namespace Sys2Proof

/-- The values of `BYTE_ORDER` for which the spec has rules: rule R41 gives none for any other. -/
inductive ByteOrder where
  | littleEndian
deriving DecidableEq, Repr

/-- The values of `ENC_HEX_CASE` (rules R6 and R69): the source lets an encoder emit either. -/
inductive HexCase where
  | lower
  | upper
deriving DecidableEq, Repr

/-- The values of `VOLTAGE_FORMAT` for which the spec has rules: rule R179 gives none for any other. -/
inductive VoltageFormat where
  | ieeeBinary16
deriving DecidableEq, Repr

/-- `BYTE_ORDER` (rule R6, decision D3). -/
def Config.byteOrder : ByteOrder := .littleEndian

/-- `ENC_HEX_CASE` (rule R6, decision D4). -/
def Config.encHexCase : HexCase := .lower

/-- `VOLTAGE_FORMAT` (rule R6, decision D6). -/
def Config.voltageFormat : VoltageFormat := .ieeeBinary16

/-- `F16_SNAN_QUIET` (rule R6, decision D7). -/
def Config.f16SnanQuiet : Bool := false

/-- `MAX_DLC`, the largest declared length (rule R6). -/
def Config.maxDlc : Len := 8

/-- `MAX_SENTENCE`, the bytes of the longest well-formed sentence, terminator included (rules R6 and R67). -/
def Config.maxSentence : Nat := 22

/-- `CLASS_TELEMETRY` (rule R6). -/
def Config.classTelemetry : Ident := 0x180

/-- `CLASS_COMMAND` (rule R6). -/
def Config.classCommand : Ident := 0x200

/-- The first class of `CLASS_RESERVED` (rule R6). -/
def Config.classReserved280 : Ident := 0x280

/-- The second class of `CLASS_RESERVED` (rule R6). -/
def Config.classReserved380 : Ident := 0x380

/-- The third class of `CLASS_RESERVED` (rule R6). -/
def Config.classReserved480 : Ident := 0x480

/-- `CLASS_RESERVED` (rule R6). -/
def Config.classReserved : List Ident :=
  [Config.classReserved280, Config.classReserved380, Config.classReserved480]

/-- `CODE_SPEED` (rule R6). -/
def Config.codeSpeed : Byte := 0x20

/-- `CODE_STOP` (rule R6). -/
def Config.codeStop : Byte := 0x04

/-- `CODE_RESET` (rule R6). -/
def Config.codeReset : Byte := 0x01

end Sys2Proof
end

