-- ==== Sys2Proof/Syntax.lean ====
section
/-! DEFINITION. What the host can present to the block, in its two forms: the raw request (the ports of rule R61
and the three other encodings of spec/opcode_table.json) and the decoded instruction, with one constructor per
row of that table. Rules R11, R60, R61, R64, R66, R75, R76 (30_encoding.md). -/

namespace Sys2Proof

/-- A CAN frame (rule R11). -/
structure CanFrame where
  identifier : Ident
  length     : Len
  payload    : List Byte
deriving DecidableEq, Repr

/-- A telemetry record (rule R196): the voltage and the speed are binary32 bit patterns. -/
structure TelemetryRecord where
  faultBits  : BitVec 16
  busVoltage : Word32
  speed      : Word32
deriving DecidableEq, Repr

/-- The operand inputs of rule R61, the block reset input among them. -/
structure Ports where
  op      : BitVec 4  := 0
  inByte  : Byte      := 0
  idIn    : Ident     := 0
  lenIn   : Len       := 0
  dataIn  : Bus       := 0
  nodeIn  : Ident     := 0
  clsIn   : Ident     := 0
  hIn     : BitVec 16 := 0
  speedIn : Word32    := 0
  rst     : Bool      := false
deriving DecidableEq, Repr

/-- The four encoding spaces of spec/opcode_table.json (its column `format`). The same bits mean different rows
in different spaces (0x04 is the operation NODE_OF and the command code of Stop), so a request says which space
it is of. DESIGN CHOICE, safe: assumption 2. -/
inductive Format where
  /-- an operation request: `op` and its operand ports (rules R60, R61, R64) -/
  | op
  /-- the bytes of an SLCAN sentence (rule R66), to be fed in order (rule R78) -/
  | slcanSentence
  /-- a command payload (rule R75) on `data_in`, for the node on `node_in` (rule R204) -/
  | commandPayload
  /-- an identifier (rule R48) on `id_in`, with the frame's payload on `data_in` and, but for a command identifier, its
  length on `len_in` (assumption 8) -/
  | identifierClass
deriving DecidableEq, Repr

/-- What the host presents in one step: the ports of rule R61, read in the given encoding space; `text` holds the
bytes of a sentence and is read by the sentence space only. -/
structure Request where
  format : Format
  ports  : Ports := {}
  text   : List Byte := []
deriving DecidableEq, Repr

/-- The instructions: one constructor per row of spec/opcode_table.json, in the table's order. -/
inductive Instr where
  /-- NOP, `op` 0x0 (rule R208) -/
  | nop
  /-- FEED, `op` 0x1 (rule R100) -/
  | feed (inByte : Byte)
  /-- ENCODE, `op` 0x2 (rule R130) -/
  | encode (id : Ident) (len : Len) (data : Bus)
  /-- COMPOSE, `op` 0x3 (rule R150) -/
  | compose (node cls : Ident)
  /-- NODE_OF, `op` 0x4 (rule R151) -/
  | nodeOf (id : Ident)
  /-- CLASS_OF, `op` 0x5 (rule R152) -/
  | classOf (id : Ident)
  /-- F16TO32, `op` 0x6 (rule R170) -/
  | f16to32 (h : BitVec 16)
  /-- TELEM_DECODE, `op` 0x7 (rule R197) -/
  | telemDecode (id : Ident) (len : Len) (data : Bus)
  /-- CMD_SPEED, `op` 0x8 (rule R205) -/
  | cmdSpeed (node : Ident) (speed : Word32)
  /-- CMD_STOP, `op` 0x9 (rule R206) -/
  | cmdStop (node : Ident)
  /-- CMD_RESET, `op` 0xA (rule R207): a command to the motor controller, not the block's reset (rule R13) -/
  | cmdReset (node : Ident)
  /-- RESERVED, `op` 0xB (rule R209) -/
  | reservedB
  /-- RESERVED, `op` 0xC..0xF, with `op[1:0]` (rule R209) -/
  | reservedCToF (low : BitVec 2)
  /-- `t`: a sentence as text, given by its bytes after the type character (rules R66 and R78) -/
  | sentenceT (body : List Byte)
  /-- SpeedControl: the command payload with code 0x20 (rules R75 and R205), for a node -/
  | payloadSpeedControl (node : Ident) (speed : Word32)
  /-- Stop: the command payload with code 0x04 (rules R75 and R206), for a node -/
  | payloadStop (node : Ident)
  /-- Reset: the command payload with code 0x01 (rules R75 and R207), for a node -/
  | payloadReset (node : Ident)
  /-- TELEMETRY_PRIMARY: a frame whose identifier is of class 0x180 (rules R48 and R199) -/
  | classTelemetryPrimary (node : BitVec 7) (len : Len) (data : Bus)
  /-- COMMAND: a command payload under an identifier of class 0x200 (rules R48 and R204) -/
  | classCommand (node : BitVec 7) (data : Bus)
  /-- TELEMETRY_RESERVED: a frame whose identifier is of class 0x280 (rules R48 and R201) -/
  | classReserved280 (node : BitVec 7) (len : Len) (data : Bus)
  /-- TELEMETRY_RESERVED: a frame whose identifier is of class 0x380 (rules R48 and R201) -/
  | classReserved380 (node : BitVec 7) (len : Len) (data : Bus)
  /-- TELEMETRY_RESERVED: a frame whose identifier is of class 0x480 (rules R48 and R201) -/
  | classReserved480 (node : BitVec 7) (len : Len) (data : Bus)
deriving DecidableEq, Repr

/-- The encoding space of an instruction's row (column `format` of spec/opcode_table.json). -/
def Instr.format : Instr → Format
  | .nop | .feed _ | .encode _ _ _ | .compose _ _ | .nodeOf _ | .classOf _ | .f16to32 _
  | .telemDecode _ _ _ | .cmdSpeed _ _ | .cmdStop _ | .cmdReset _ | .reservedB | .reservedCToF _ => .op
  | .sentenceT _ => .slcanSentence
  | .payloadSpeedControl _ _ | .payloadStop _ | .payloadReset _ => .commandPayload
  | .classTelemetryPrimary _ _ _ | .classCommand _ _ | .classReserved280 _ _ _
  | .classReserved380 _ _ _ | .classReserved480 _ _ _ => .identifierClass

end Sys2Proof
end

