-- ==== Sys2Proof/Machine/Operands.lean ====
section
/-! DEFINITION. The operand forms: characters and hexadecimal digits (rules R8, R68, R69), payload bytes on a bus
(rule R62), the payload field primitives (rules R190 to R193), the identifier's fields (rules R70, R76, R151, R152)
and the grammar of a sentence with the frame it spells (rules R66, R70, R71, R72). -/

namespace Sys2Proof.Machine

/-! ### Characters (rule R8) -/

/-- The type character `'t'` (rule R8). -/
def charT : Byte := 0x74

/-- The terminator, a carriage return (rules R8 and R66). -/
def charCR : Byte := 0x0D

/-- `HexVal` (rule R68): the value of a hexadecimal digit in either case, nothing for any other byte. -/
def hexVal (b : Byte) : Option Nibble :=
  if 0x30 ≤ b ∧ b ≤ 0x39 then some ((b - 0x30).setWidth 4)
  else if 0x41 ≤ b ∧ b ≤ 0x46 then some ((b - 0x41 + 10).setWidth 4)
  else if 0x61 ≤ b ∧ b ≤ 0x66 then some ((b - 0x61 + 10).setWidth 4)
  else none

/-- The character of a digit from 10 up, in a given letter case (rule R69; upper case is the other choice the source
leaves an encoder). -/
def hexLetterBase : HexCase → Byte
  | .lower => 0x61
  | .upper => 0x41

/-- The character of a digit in a given letter case (rule R69). -/
def hexCharIn (c : HexCase) (v : Nibble) : Byte :=
  if v ≤ 9 then 0x30 + v.setWidth 8 else hexLetterBase c + (v.setWidth 8 - 10)

/-- `HexChar` (rule R69): the character the encoder writes, at the parameter `ENC_HEX_CASE`. -/
def hexChar (v : Nibble) : Byte := hexCharIn Config.encHexCase v

/-! ### Bytes on a bus (rule R62) -/

/-- Byte `k` of a bus: bits `8k+7 : 8k` (rule R62). -/
def byteAt {w : Nat} (v : BitVec w) (k : Nat) : Byte := v.extractLsb' (8 * k) 8

/-- A list of bytes laid on a bus, byte 0 lowest; the lanes past the list are 0x00 (rule R62). -/
def packBytes (w : Nat) : List Byte → BitVec w
  | [] => 0
  | b :: bs => (packBytes w bs <<< 8) ||| b.setWidth w

/-- The first `n` bytes of a payload bus (rule R62: bytes `n..7` are not part of the payload). -/
def payloadBytes (data : Bus) (n : Nat) : List Byte := (List.range n).map (byteAt data)

/-- A bus with byte `k` replaced. -/
def setByte (data : Bus) (k : Nat) (b : Byte) : Bus :=
  (data &&& ~~~((0xFF#64) <<< (8 * k))) ||| (b.setWidth 64 <<< (8 * k))

/-! ### Payload fields (rules R190 to R193) -/

/-- Two bytes, the one at the lower offset first, as a 16-bit field in a byte order (rule R41). -/
def joinBytes : ByteOrder → Byte → Byte → BitVec 16
  | .littleEndian, b0, b1 => b1 ++ b0

/-- `GetU16` (rule R190), whose offsets are 0..6 and no other. -/
def getU16 (data : Bus) (off : Fin 7) : BitVec 16 :=
  joinBytes Config.byteOrder (byteAt data off.val) (byteAt data (off.val + 1))

/-- Two 16-bit halves, the one at the lower offset first, as a 32-bit field in a byte order (rules R41 and R44). -/
def joinHalves : ByteOrder → BitVec 16 → BitVec 16 → Word32
  | .littleEndian, h0, h1 => h1 ++ h0

/-- `GetU32` (rule R191), whose offsets are 0..4 and no other. -/
def getU32 (data : Bus) (off : Fin 5) : Word32 :=
  joinHalves Config.byteOrder
    (joinBytes Config.byteOrder (byteAt data off.val) (byteAt data (off.val + 1)))
    (joinBytes Config.byteOrder (byteAt data (off.val + 2)) (byteAt data (off.val + 3)))

/-- `PutU8` (rule R192). -/
def putU8 (data : Bus) (off : Fin 8) (v : Byte) : Bus := setByte data off.val v

/-- Which byte of a 32-bit value stands `i` places above the field's offset (rules R41 and R192). -/
def laneOf : ByteOrder → Word32 → Nat → Byte
  | .littleEndian, v, i => byteAt v i

/-- `PutU32` (rule R192), whose offsets are 0..4 and no other. -/
def putU32 (data : Bus) (off : Fin 5) (v : Word32) : Bus :=
  let lane := laneOf Config.byteOrder v
  setByte (setByte (setByte (setByte data off.val (lane 0)) (off.val + 1) (lane 1)) (off.val + 2) (lane 2)) (off.val + 3) (lane 3)

/-- `Zero8`, the payload of eight 0x00 bytes (rules R192 and R193). -/
def zero8 : Bus := 0

/-- The SpeedControl payload (rules R75 and R205). -/
def speedPayload (speed : Word32) : Bus := putU32 (putU8 zero8 0 Config.codeSpeed) 4 speed

/-- The Stop payload (rules R75 and R206). -/
def stopPayload : Bus := putU8 zero8 0 Config.codeStop

/-- The Reset payload (rules R75 and R207). -/
def resetPayload : Bus := putU8 zero8 0 Config.codeReset

/-! ### The identifier's fields (rules R70 and R76) -/

/-- The identifier three digits spell, most significant first: `d1*0x100 + d2*0x10 + d3` (rule R70). -/
def identOfDigits (d1 d2 d3 : Nibble) : Ident :=
  d1.setWidth 11 * 0x100 + d2.setWidth 11 * 0x10 + d3.setWidth 11

/-- `id mod 0x80`, bits 6:0 (rules R76 and R151). -/
def nodeField (id : Ident) : BitVec 7 := id.extractLsb' 0 7

/-- `id - (id mod 0x80)`, bits 10:7 above seven zero bits (rules R76 and R152). -/
def classField (id : Ident) : Ident := id - (nodeField id).setWidth 11

/-- The additive composition, reduced mod 2^11 (rule R150). -/
def composeIdent (node cls : Ident) : Ident := node + cls

/-- An identifier from its class and its node (rule R76: `identifier = node + class`). -/
def identOf (cls : Ident) (node : BitVec 7) : Ident := composeIdent (node.setWidth 11) cls

/-! ### The sentence as text (rules R66, R70, R71 and R72) -/

/-- The payload that `n` pairs of hexadecimal digits and a carriage return spell, nothing for any other text
(rules R66 and R72). -/
def payloadText : Nat → List Byte → Option (List Byte)
  | 0, [c] => if c = charCR then some [] else none
  | 0, _ => none
  | n + 1, hi :: lo :: rest =>
    match hexVal hi, hexVal lo, payloadText n rest with
    | some h, some l, some p => some ((h ++ l) :: p)
    | _, _, _ => none
  | _ + 1, _ => none

/-- The frame a sentence spells, nothing for a text that is not one sentence of the grammar of rule R66: read by
position, without the decoder's states. -/
def sentenceFrame : List Byte → Option CanFrame
  | c0 :: c1 :: c2 :: c3 :: c4 :: rest =>
    match hexVal c1, hexVal c2, hexVal c3, hexVal c4 with
    | some d1, some d2, some d3, some n =>
      if c0 = charT ∧ d1 ≤ 7 ∧ n ≤ Config.maxDlc then
        match payloadText n.toNat rest with
        | some p => some { identifier := identOfDigits d1 d2 d3, length := n, payload := p }
        | none => none
      else none
    | _, _, _, _ => none
  | _ => none

end Sys2Proof.Machine
end

