-- ==== Sys2Proof/WellFormed.lean ====
section
/-! DEFINITION. Which instructions are well-formed: the operand checks the spec states (a length of at most 8 for
ENCODE, rules R11, R132 and R269; the grammar of rule R66 for a sentence; the layouts of rule R75 for a command
payload). Node ids and object classes are checked by nobody (rule R154). -/

namespace Sys2Proof

/-- A length the encoder accepts (rule R132). -/
def lengthOk (len : Len) : Bool := len ≤ Config.maxDlc

/-- The bytes after `'t'` of one sentence of the grammar of rule R66. -/
def sentenceBodyOk (body : List Byte) : Bool := (Machine.sentenceFrame (Machine.charT :: body)).isSome

/-- One of the three command payloads of rule R75. -/
def commandPayloadOk (data : Bus) : Bool :=
  data = Machine.speedPayload (Machine.getU32 data 4) || data = Machine.stopPayload || data = Machine.resetPayload

/-- The operand checks of an instruction. -/
def Instr.wellFormed : Instr → Bool
  | .encode _ len _ => lengthOk len
  | .sentenceT body => sentenceBodyOk body
  | .classCommand _ data => commandPayloadOk data
  | .nop | .feed _ | .compose _ _ | .nodeOf _ | .classOf _ | .f16to32 _ | .telemDecode _ _ _
  | .cmdSpeed _ _ | .cmdStop _ | .cmdReset _ | .reservedB | .reservedCToF _
  | .payloadSpeedControl _ _ | .payloadStop _ | .payloadReset _
  | .classTelemetryPrimary _ _ _ | .classReserved280 _ _ _ | .classReserved380 _ _ _
  | .classReserved480 _ _ _ => true

end Sys2Proof
end

