-- ==== Sys2Proof/Decode.lean ====
section
/-! DEFINITION. The decoder, from a request to an instruction, total, rejecting by name; the encoder, from an
instruction to its request; and the request that a word of spec/opcode_table.json stands for. Rules R60, R61, R64,
R65 (operation requests), R66 (sentences), R75 (command payloads), R48 and R76 (identifier classes). -/

namespace Sys2Proof

/-- Why a request is no instruction of the table. Each is safe: the step refuses. Operation requests are never
among them (rule R65 gives every code a meaning). -/
inductive DecodeError where
  /-- a text whose first byte is not `'t'`: rule R73 admits no other sentence form; its bytes can be fed by FEED -/
  | notASentence
  /-- a text that goes on after a carriage return: rule R12 ends a sentence there -/
  | bytesAfterTerminator
  /-- a payload whose byte 0 is none of the three command codes of rule R75 -/
  | unknownCommandCode
  /-- a payload with a command code and a byte that rule R75 wants zero and is not -/
  | nonZeroFill
deriving DecidableEq, Repr

/-- The regions of the identifier space (rule R48). -/
inductive IdentRegion where
  | telemetryPrimary
  | command
  | reserved280
  | reserved380
  | reserved480
  | unnamed
deriving DecidableEq, Repr

/-- The region of an identifier, by its object class (rules R48 and R76). -/
def identRegion (id : Ident) : IdentRegion :=
  let cls := Machine.classField id
  if cls = Config.classTelemetry then .telemetryPrimary
  else if cls = Config.classCommand then .command
  else if cls = Config.classReserved280 then .reserved280
  else if cls = Config.classReserved380 then .reserved380
  else if cls = Config.classReserved480 then .reserved480
  else .unnamed

/-- An operation request, by all four bits of `op` (rule R64); a port an operation does not read is ignored
(rule R61). -/
def decodeOp (p : Ports) : Instr :=
  match p.op.toNat with
  | 0x0 => .nop
  | 0x1 => .feed p.inByte
  | 0x2 => .encode p.idIn p.lenIn p.dataIn
  | 0x3 => .compose p.nodeIn p.clsIn
  | 0x4 => .nodeOf p.idIn
  | 0x5 => .classOf p.idIn
  | 0x6 => .f16to32 p.hIn
  | 0x7 => .telemDecode p.idIn p.lenIn p.dataIn
  | 0x8 => .cmdSpeed p.nodeIn p.speedIn
  | 0x9 => .cmdStop p.nodeIn
  | 0xA => .cmdReset p.nodeIn
  | 0xB => .reservedB
  | _ => .reservedCToF (p.op.extractLsb' 0 2)

/-- Whether a carriage return stands nowhere but in the last place: the text holds no more than one sentence. -/
def crOnlyLast : List Byte → Bool
  | [] => true
  | b :: bs => if b = Machine.charCR then bs.isEmpty else crOnlyLast bs

/-- A sentence by its type character (rules R66 and R73). What follows is decided byte by byte as it is fed, so that
a malformed sentence is an instruction too and is recovered as rule R103 says. -/
def decodeText : List Byte → Except DecodeError Instr
  | [] => .error .notASentence
  | b :: body =>
    if b = Machine.charT then
      if crOnlyLast body then .ok (.sentenceT body) else .error .bytesAfterTerminator
    else .error .notASentence

/-- A command payload by its byte 0, the bytes rule R75 wants zero being zero. -/
def decodePayload (node : Ident) (data : Bus) : Except DecodeError Instr :=
  let code := Machine.byteAt data 0
  if code = Config.codeSpeed then
    if data = Machine.speedPayload (Machine.getU32 data 4)
    then .ok (.payloadSpeedControl node (Machine.getU32 data 4)) else .error .nonZeroFill
  else if code = Config.codeStop then
    if data = Machine.stopPayload then .ok (.payloadStop node) else .error .nonZeroFill
  else if code = Config.codeReset then
    if data = Machine.resetPayload then .ok (.payloadReset node) else .error .nonZeroFill
  else .error .unknownCommandCode

/-- An identifier by its region (rule R48). An identifier of a class the table does not name is no row of its own:
a frame that arrives already decoded enters the block at TELEM_DECODE (90_conflicts.md C6). DESIGN CHOICE, safe: under a
command identifier `len_in` is not read, whatever it is, since rule R204 renders eight bytes always; the spec has no request
of a command identifier with a length (assumption 8). -/
def decodeIdent (id : Ident) (len : Len) (data : Bus) : Instr :=
  let node := Machine.nodeField id
  match identRegion id with
  | .telemetryPrimary => .classTelemetryPrimary node len data
  | .command => .classCommand node data
  | .reserved280 => .classReserved280 node len data
  | .reserved380 => .classReserved380 node len data
  | .reserved480 => .classReserved480 node len data
  | .unnamed => .telemDecode id len data

/-- The decoder. The block reset input is not its concern: it takes precedence over any operation (rule R260). -/
def decode (r : Request) : Except DecodeError Instr :=
  match r.format with
  | .op => .ok (decodeOp r.ports)
  | .slcanSentence => decodeText r.text
  | .commandPayload => decodePayload r.ports.nodeIn r.ports.dataIn
  | .identifierClass => .ok (decodeIdent r.ports.idIn r.ports.lenIn r.ports.dataIn)

/-- The encoder: an operation by its code and its operand ports (rules R64 and R77), a sentence by its text
(rule R66), a payload by its layout (rule R75), a class by an identifier of it (rule R76). The ports an instruction
does not read are 0. -/
def encode : Instr → Request
  | .nop => { format := .op, ports := { op := 0x0 } }
  | .feed b => { format := .op, ports := { op := 0x1, inByte := b } }
  | .encode id len data => { format := .op, ports := { op := 0x2, idIn := id, lenIn := len, dataIn := data } }
  | .compose node cls => { format := .op, ports := { op := 0x3, nodeIn := node, clsIn := cls } }
  | .nodeOf id => { format := .op, ports := { op := 0x4, idIn := id } }
  | .classOf id => { format := .op, ports := { op := 0x5, idIn := id } }
  | .f16to32 h => { format := .op, ports := { op := 0x6, hIn := h } }
  | .telemDecode id len data => { format := .op, ports := { op := 0x7, idIn := id, lenIn := len, dataIn := data } }
  | .cmdSpeed node speed => { format := .op, ports := { op := 0x8, nodeIn := node, speedIn := speed } }
  | .cmdStop node => { format := .op, ports := { op := 0x9, nodeIn := node } }
  | .cmdReset node => { format := .op, ports := { op := 0xA, nodeIn := node } }
  | .reservedB => { format := .op, ports := { op := 0xB } }
  | .reservedCToF low => { format := .op, ports := { op := 0xC + low.setWidth 4 } }
  | .sentenceT body => { format := .slcanSentence, text := Machine.charT :: body }
  | .payloadSpeedControl node speed =>
    { format := .commandPayload, ports := { nodeIn := node, dataIn := Machine.speedPayload speed } }
  | .payloadStop node => { format := .commandPayload, ports := { nodeIn := node, dataIn := Machine.stopPayload } }
  | .payloadReset node => { format := .commandPayload, ports := { nodeIn := node, dataIn := Machine.resetPayload } }
  | .classTelemetryPrimary node len data =>
    { format := .identifierClass, ports := { idIn := Machine.identOf Config.classTelemetry node, lenIn := len, dataIn := data } }
  | .classCommand node data =>
    { format := .identifierClass, ports := { idIn := Machine.identOf Config.classCommand node, lenIn := Config.maxDlc, dataIn := data } }
  | .classReserved280 node len data =>
    { format := .identifierClass, ports := { idIn := Machine.identOf Config.classReserved280 node, lenIn := len, dataIn := data } }
  | .classReserved380 node len data =>
    { format := .identifierClass, ports := { idIn := Machine.identOf Config.classReserved380 node, lenIn := len, dataIn := data } }
  | .classReserved480 node len data =>
    { format := .identifierClass, ports := { idIn := Machine.identOf Config.classReserved480 node, lenIn := len, dataIn := data } }

/-- The pseudo-operation `FEEDS "<text>"` (rule R78): one FEED request per byte, in order. -/
def feedRequests (text : List Byte) : List Request := text.map (fun b => encode (.feed b))

/-- The low `n` bytes of a number, the lowest first. -/
def bytesOfNat : Nat → Nat → List Byte
  | 0, _ => []
  | n + 1, w => BitVec.ofNat 8 w :: bytesOfNat n (w / 256)

/-- Which encoding space a word of spec/opcode_table.json is of, by how many bits the table gives its row: 8 for an
operation (4 bits, in whole bytes), 16 for an identifier (11 bits), more for a payload or a sentence, told apart by
byte 0; an 8-bit word that is the type character or the code of SpeedControl is taken as that row's byte 0, since
no operation has bits above `op[3:0]`. DESIGN CHOICE: assumption 3. -/
def formatOfWord (nbits w : Nat) : Format :=
  if nbits ≤ 8 then
    if w % 256 = 0x74 then .slcanSentence
    else if w % 256 = 0x20 then .commandPayload
    else .op
  else if nbits ≤ 16 then .identifierClass
  else if w % 256 = 0x74 then .slcanSentence
  else .commandPayload

/-- The request that a word of spec/opcode_table.json stands for: its bits on the port its encoding space is read
from, everything else 0. -/
def requestOfWord (nbits w : Nat) : Request :=
  match formatOfWord nbits w with
  | .op => { format := .op, ports := { op := BitVec.ofNat 4 w } }
  | .slcanSentence => { format := .slcanSentence, text := bytesOfNat ((nbits + 7) / 8) w }
  | .commandPayload => { format := .commandPayload, ports := { dataIn := BitVec.ofNat 64 w } }
  | .identifierClass => { format := .identifierClass, ports := { idIn := BitVec.ofNat 11 w } }

/-- The instruction the decoder reads from a word of spec/opcode_table.json. -/
def decodeTableWord (nbits w : Nat) : Option Instr :=
  match decode (requestOfWord nbits w) with
  | .ok i => some i
  | .error _ => none

end Sys2Proof
end

