-- ==== Sys2Proof/Machine/State.lean ====
section
/-! DEFINITION. The state: the decoder's fields (rule R23), the host's requests still to come, and the result outputs of
the step just made (rule R63); the reset state (rules R29 and R260); the reasons a step can stop. -/

namespace Sys2Proof.Machine

/-- The sentence state machine's states (rule R23). -/
inductive SentenceState where
  | idle
  | readingId
  | readingLength
  | readingData
deriving DecidableEq, Repr

/-- The spec's 2-bit code of a state (rule R23), visible to nothing outside the block. -/
def SentenceState.code : SentenceState → BitVec 2
  | .idle => 0
  | .readingId => 1
  | .readingLength => 2
  | .readingData => 3

/-- The decoder state `s` of rule R23, which is all the state the block has (rule R24). -/
structure Decoder where
  /-- `st`, 2 bits -/
  st     : SentenceState
  /-- `id_cnt`, 2 bits: identifier digits received so far -/
  idCnt  : BitVec 2
  /-- `id_acc`, 11 bits: identifier accumulated so far -/
  idAcc  : BitVec 11
  /-- `dlc`, 4 bits: declared length -/
  dlc    : BitVec 4
  /-- `nib_cnt`, 5 bits: payload digits received so far -/
  nibCnt : BitVec 5
  /-- `buf[0..7]`, the payload buffer (rule R26) -/
  buf    : Vector Byte 8
deriving DecidableEq, Repr

/-- The reset values of rule R29. -/
def Decoder.reset : Decoder :=
  { st := .idle, idCnt := 0, idAcc := 0, dlc := 0, nibCnt := 0, buf := #v[0, 0, 0, 0, 0, 0, 0, 0] }

/-- The result outputs of one step, one field per port of rule R63. `none` is a port that the step leaves
unspecified: rule R63 lets a model not expose it (93_implementation_defined.md I10). -/
structure Outputs where
  frmValid   : Option Bool := none
  frmId      : Option Ident := none
  frmLen     : Option Len := none
  frmData    : Option Bus := none
  sentLen    : Option (BitVec 5) := none
  sent       : Option (BitVec 176) := none
  idOut      : Option Ident := none
  nodeOut    : Option (BitVec 7) := none
  clsOut     : Option Ident := none
  fOut       : Option Word32 := none
  telValid   : Option Bool := none
  telStatus  : Option (BitVec 2) := none
  telFault   : Option (BitVec 16) := none
  telVoltage : Option Word32 := none
  telSpeed   : Option Word32 := none
deriving DecidableEq, Repr

/-- The outputs of a step that gives neither a frame nor a record: both strobes 0, every other port unspecified
(rules R208, R209 and R260). -/
def Outputs.noResult : Outputs := { frmValid := some false, telValid := some false }

/-- The machine: the block's decoder, the host's requests in the order it will present them (one a step, rule R60;
the model's own field, assumption 1), and the result outputs of the last step (the model's own field, assumption 4:
the block holds no output, rule R22). -/
structure State where
  dec      : Decoder
  requests : List Request
  out      : Outputs
deriving DecidableEq, Repr

/-- The machine right after reset: the decoder as rule R29 says, both strobes 0 as rule R260 says, and a host that
has presented nothing. -/
def State.reset : State := { dec := Decoder.reset, requests := [], out := Outputs.noResult }

/-- No step faults: the block raises no exception, has no trap and stops on no input (rules R230 and R102). -/
inductive Fault where
deriving DecidableEq, Repr

/-- The reasons a step is refused; each is safe, since nothing can be proved of what follows. -/
inductive Refusal where
  /-- raised by `exec` for an instruction without a meaning; no arm raises it any more -/
  | notModelled (mnemonic : String)
  /-- raised by ENCODE for a length of 9..15, which rule R132 gives no meaning (safe) -/
  | lengthAboveEight (len : Len)
  /-- raised by the step for a request that is no instruction of the table (safe) -/
  | undecodable (why : DecodeError)
deriving DecidableEq, Repr

/-- The outcome of a step of this machine. -/
abbrev Result := Host.Outcome State Fault Refusal

end Sys2Proof.Machine
end

