-- ==== Sys2Proof/Machine/Flags.lean ====
section
/-! DEFINITION. The block has no flags or condition codes (rule R24). What stands nearest to them are the strobes and
the outcome code that qualify a step's results: `frm_valid` (rule R101), `tel_valid` and `tel_status` (rule R203). -/

namespace Sys2Proof.Machine

/-- The four outcomes of TELEM_DECODE (rules R199 to R202). -/
inductive TelemOutcome where
  /-- class 0x180, length 8 (rule R199) -/
  | record (r : TelemetryRecord)
  /-- class 0x180, another length (rule R200) -/
  | wrongLength
  /-- class 0x280, 0x380 or 0x480 (rule R201) -/
  | reservedClass
  /-- any other class (rule R202) -/
  | otherClass
deriving DecidableEq, Repr

/-- `tel_status` (rule R203). -/
def telStatusOf : TelemOutcome → BitVec 2
  | .record _ => 0
  | .wrongLength => 1
  | .reservedClass => 2
  | .otherClass => 3

/-- `tel_valid` (rule R203). -/
def telValidOf : TelemOutcome → Bool
  | .record _ => true
  | _ => false

/-- The record an outcome carries: the return value of TELEM_DECODE (rules R10 and R197). -/
def recordOf : TelemOutcome → Option TelemetryRecord
  | .record r => some r
  | _ => none

end Sys2Proof.Machine
end

