-- ==== Sys2Proof/Machine/Ops.lean ====
section
/-! DEFINITION. The named operations over the state, shared by the meanings: the moves of the sentence state machine
(rules R104 to R110), the recovery from a malformed sentence, which is the block's only analogue of taking an
exception and of returning from one (rules R103, R232, R233), the block reset (rule R260), and driving the result
outputs (rules R62, R63, R101, R203). The block has no memory and no exception to take (rules R40 and R230). -/

namespace Sys2Proof.Machine

/-! ### Recovery: what stands for an exception here -/

/-- A malformed sentence is discarded: `st` is `Idle` and nothing else is written (rules R103 and R232). -/
def Decoder.recover (d : Decoder) : Decoder := { d with st := .idle }

/-- `'t'` starts a sentence, from `Idle` or over the sentence in progress (rules R104 and R105). -/
def Decoder.startSentence (d : Decoder) : Decoder := { d with st := .readingId, idCnt := 0, idAcc := 0 }

/-! ### The moves of a sentence that goes on -/

/-- An identifier digit is accepted (rule R106). -/
def Decoder.acceptIdDigit (d : Decoder) (v : Nibble) : Decoder :=
  if d.idCnt = 2 then
    { d with idAcc := d.idAcc * 16 + v.setWidth 11, st := .readingLength, idCnt := 0 }
  else { d with idAcc := d.idAcc * 16 + v.setWidth 11, idCnt := d.idCnt + 1 }

/-- A length digit is accepted (rule R107). -/
def Decoder.acceptLength (d : Decoder) (v : Nibble) : Decoder :=
  { d with dlc := v, nibCnt := 0, st := .readingData }

/-- What a payload digit makes of the buffer cell it goes to: the high nibble clears the low one, the low nibble is
added (rule R108). -/
def nibbleInto (old : Byte) (nibCnt : BitVec 5) (v : Nibble) : Byte :=
  if nibCnt.toNat % 2 = 0 then v.setWidth 8 * 16 else old + v.setWidth 8

/-- A payload digit is accepted into cell `nib_cnt div 2` (rule R108). A cell above 7, which rule R27 rules out, is
written nowhere (assumption 5). -/
def Decoder.acceptNibble (d : Decoder) (v : Nibble) : Decoder :=
  let k := d.nibCnt.toNat / 2
  { d with
    buf := d.buf.setIfInBounds k (nibbleInto (d.buf.getD k 0) d.nibCnt v)
    nibCnt := d.nibCnt + 1 }

/-- The frame that the decoder's fields hold at the terminator (rule R109). -/
def Decoder.frame (d : Decoder) : CanFrame :=
  { identifier := d.idAcc, length := d.dlc, payload := d.buf.toList.take d.dlc.toNat }

/-! ### Driving the result outputs -/

/-- The outputs of FEED (rule R101): the strobe, and the frame with the lanes past its length 0x00. -/
def Outputs.ofFeed : Option CanFrame → Outputs
  | none => { frmValid := some false }
  | some f =>
    { frmValid := some true, frmId := some f.identifier, frmLen := some f.length
      frmData := some (packBytes 64 f.payload) }

/-- The outputs of ENCODE and of the command operations (rule R63): the bytes of a sentence, the rest 0x00. -/
def Outputs.ofSentence (bytes : List Byte) : Outputs :=
  { sentLen := some (BitVec.ofNat 5 bytes.length), sent := some (packBytes 176 bytes) }

/-- The outputs of TELEM_DECODE (rules R63 and R203): the record's ports are driven with a record only. -/
def Outputs.ofTelem (o : TelemOutcome) : Outputs :=
  { telValid := some (telValidOf o), telStatus := some (telStatusOf o)
    telFault := (recordOf o).map (·.faultBits)
    telVoltage := (recordOf o).map (·.busVoltage)
    telSpeed := (recordOf o).map (·.speed) }

/-- The frame a step's outputs carry: the return value of FEED (rules R10 and R101). -/
def Outputs.frame (o : Outputs) : Option CanFrame :=
  match o.frmValid, o.frmId, o.frmLen, o.frmData with
  | some true, some id, some n, some data =>
    some { identifier := id, length := n, payload := payloadBytes data n.toNat }
  | _, _, _, _ => none

/-- A step's outputs replace those of the step before: no output is held (rule R22). -/
def State.drive (s : State) (o : Outputs) : State := { s with out := o }

/-- A step's new decoder state. -/
def State.withDecoder (s : State) (d : Decoder) : State := { s with dec := d }

/-- The block reset (rule R260): the decoder takes its reset values, and no result is valid. -/
def State.blockReset (s : State) : State := (s.withDecoder Decoder.reset).drive Outputs.noResult

/-- The host's request of this step is taken from the sequence it presents (rule R60). -/
def State.withRequests (s : State) (rs : List Request) : State := { s with requests := rs }

end Sys2Proof.Machine
end

