-- ==== Sys2Proof/Machine/AddressCodec.lean ====
section
/-! DEFINITION. AddressCodec (42_address_codec.md): COMPOSE, NODE_OF and CLASS_OF. No operand is checked (rule R154). -/

namespace Sys2Proof.Machine

/-- COMPOSE (rule R150). -/
def execCompose (node cls : Ident) (s : State) : Result :=
  .next (s.drive { idOut := some (composeIdent node cls) })

/-- NODE_OF (rule R151). -/
def execNodeOf (id : Ident) (s : State) : Result :=
  .next (s.drive { nodeOut := some (nodeField id) })

/-- CLASS_OF (rule R152). -/
def execClassOf (id : Ident) (s : State) : Result :=
  .next (s.drive { clsOut := some (classField id) })

end Sys2Proof.Machine
end

