-- ==== Sys2Proof/Machine/FrameEncoder.lean ====
section
/-! DEFINITION. FrameEncoder (41_frame_encoder.md): ENCODE. -/

namespace Sys2Proof.Machine

/-- The two digits of a payload byte, the high nibble first (rules R72 and R130). -/
def hexByte (b : Byte) : List Byte := [hexChar (b.extractLsb' 4 4), hexChar (b.extractLsb' 0 4)]

/-- The bytes of the sentence of a frame, terminator included (rule R130). -/
def renderSentence (id : Ident) (len : Len) (data : Bus) : List Byte :=
  [charT, hexChar ((id.extractLsb' 8 3).setWidth 4), hexChar (id.extractLsb' 4 4), hexChar (id.extractLsb' 0 4),
    hexChar len] ++ (payloadBytes data len.toNat).flatMap hexByte ++ [charCR]

/-- ENCODE (rule R130). A length of 9..15 has no meaning and the model refuses the request (rule R132). -/
def execEncode (id : Ident) (len : Len) (data : Bus) (s : State) : Result :=
  if len ≤ Config.maxDlc then .next (s.drive (.ofSentence (renderSentence id len data)))
  else .refused (.lengthAboveEight len)

end Sys2Proof.Machine
end

