-- ==== Sys2Proof/Machine/CommandCodec.lean ====
section
/-! DEFINITION. CommandCodec (44_payload_codec.md section 3): CMD_SPEED, CMD_STOP and CMD_RESET; the three command
payloads handed to it for a node; and a command payload under an identifier of the command class. -/

namespace Sys2Proof.Machine

/-- What every command operation renders: `ENCODE(COMPOSE(node, 0x200), 8, payload)` (rule R204). -/
def commandSentence (node : Ident) (payload : Bus) : List Byte :=
  renderSentence (composeIdent node Config.classCommand) 8 payload

/-- A command rendered: the sentence on the outputs, no state changed (rules R204 and R21). -/
def driveCommand (node : Ident) (payload : Bus) (s : State) : Result :=
  .next (s.drive (.ofSentence (commandSentence node payload)))

/-- CMD_SPEED (rule R205). -/
def execCmdSpeed (node : Ident) (speed : Word32) (s : State) : Result := driveCommand node (speedPayload speed) s

/-- CMD_STOP (rule R206). -/
def execCmdStop (node : Ident) (s : State) : Result := driveCommand node stopPayload s

/-- CMD_RESET (rule R207). It does not reset the block (rule R13). -/
def execCmdReset (node : Ident) (s : State) : Result := driveCommand node resetPayload s

/-- SpeedControl: the payload of rule R75 handed to CommandCodec for a node (rules R204 and R205; assumption 7). -/
def execPayloadSpeedControl (node : Ident) (speed : Word32) (s : State) : Result :=
  driveCommand node (speedPayload speed) s

/-- Stop: the payload of rule R75 handed to CommandCodec for a node (rules R204 and R206; assumption 7). -/
def execPayloadStop (node : Ident) (s : State) : Result := driveCommand node stopPayload s

/-- Reset: the payload of rule R75 handed to CommandCodec for a node (rules R204 and R207; assumption 7). -/
def execPayloadReset (node : Ident) (s : State) : Result := driveCommand node resetPayload s

/-- COMMAND: a payload rendered under the identifier of the command class and a node (rules R48 and R204). DESIGN CHOICE,
safe: the length is 8 whatever `len_in` the request holds, and the payload is rendered as given, also where it is no layout of
rule R75, as ENCODE would render it; `Instr.wellFormed` alone tells such a payload apart (assumption 8). -/
def execClassCommand (node : BitVec 7) (data : Bus) (s : State) : Result := driveCommand (node.setWidth 11) data s

end Sys2Proof.Machine
end

