-- ==== Sys2Proof/Machine/FrameDecoder.lean ====
section
/-! DEFINITION. FrameDecoder (40_frame_decoder.md): FEED, and the sentence `t` as the FEEDs of its bytes. -/

namespace Sys2Proof.Machine

/-- FEED in `ReadingId` (rule R106). -/
def feedReadingId (d : Decoder) (v : Option Nibble) : Decoder :=
  match v with
  | none => d.recover
  | some x => if d.idCnt = 0 ∧ x > 7 then d.recover else d.acceptIdDigit x

/-- FEED in `ReadingLength` (rule R107). -/
def feedReadingLength (d : Decoder) (v : Option Nibble) : Decoder :=
  match v with
  | none => d.recover
  | some x => if x > Config.maxDlc then d.recover else d.acceptLength x

/-- FEED in `ReadingData` (rules R108, R109 and R110). -/
def feedReadingData (d : Decoder) (b : Byte) (v : Option Nibble) : Decoder × Option CanFrame :=
  match v with
  | some x => if d.nibCnt.toNat < 2 * d.dlc.toNat then (d.acceptNibble x, none) else (d.recover, none)
  | none =>
    if b = charCR ∧ d.nibCnt.toNat = 2 * d.dlc.toNat then (d.recover, some d.frame) else (d.recover, none)

/-- One byte fed to the decoder (rule R100): the next decoder state and the frame it emits, if any. -/
def feedByte (d : Decoder) (b : Byte) : Decoder × Option CanFrame :=
  if b = charT then (d.startSentence, none)
  else
    match d.st with
    | .idle => (d, none)
    | .readingId => (feedReadingId d (hexVal b), none)
    | .readingLength => (feedReadingLength d (hexVal b), none)
    | .readingData => feedReadingData d b (hexVal b)

/-- Bytes fed one after the other: the decoder state after them and what each FEED returned (rules R78 and R112). -/
def feedBytes (d : Decoder) : List Byte → Decoder × List (Option CanFrame)
  | [] => (d, [])
  | b :: bs =>
    let r := feedByte d b
    let rest := feedBytes r.1 bs
    (rest.1, r.2 :: rest.2)

/-- What the last of a sequence of FEEDs returned. -/
def lastFrame (frames : List (Option CanFrame)) : Option CanFrame := frames.getLast?.join

/-- FEED (rules R100 and R101). -/
def execFeed (b : Byte) (s : State) : Result :=
  .next ((s.withDecoder (feedByte s.dec b).1).drive (.ofFeed (feedByte s.dec b).2))

/-- `t`: the bytes of a sentence, fed in order (rules R66 and R78); the outputs are those of the last FEED. The
hardware takes a step for each byte; assumption 6. -/
def execSentenceT (body : List Byte) (s : State) : Result :=
  let r := feedBytes s.dec (charT :: body)
  .next ((s.withDecoder r.1).drive (.ofFeed (lastFrame r.2)))

end Sys2Proof.Machine
end

