-- ==== Sys2Proof/Machine/NoOperation.lean ====
section
/-! DEFINITION. NOP and the reserved operation codes (44_payload_codec.md section 4). -/

namespace Sys2Proof.Machine

/-- NOP (rule R208). -/
def execNop (s : State) : Result := .next (s.drive .noResult)

/-- RESERVED, code 0xB, which behaves as NOP (rule R209). -/
def execReservedB (s : State) : Result := .next (s.drive .noResult)

/-- RESERVED, codes 0xC..0xF, which behave as NOP whatever `op[1:0]` is (rule R209). -/
def execReservedCToF (_low : BitVec 2) (s : State) : Result := .next (s.drive .noResult)

end Sys2Proof.Machine
end

