-- ==== Sys2Proof/Machine/Float16Codec.lean ====
section
/-! DEFINITION. Float16Codec (43_float16.md): F16TO32. -/

namespace Sys2Proof.Machine

/-- The position of the most significant 1 among bits `k` down to 0 of a mantissa, 0 where there is none. -/
def leadingOneFrom (m : BitVec 10) : Nat → Nat
  | 0 => 0
  | k + 1 => if m.getLsbD (k + 1) then k + 1 else leadingOneFrom m k

/-- `p` of rule R170: the position of the most significant 1 bit of a mantissa that is not 0. -/
def leadingOne (m : BitVec 10) : Nat := leadingOneFrom m 9

/-- The fraction of a NaN, its quiet bit forced or not (rule R177). -/
def nanFraction (quiet : Bool) (m : BitVec 10) : BitVec 23 :=
  if quiet then (m ++ 0#13) ||| 0x400000 else m ++ 0#13

/-- The conversion at a value of `F16_SNAN_QUIET` (rules R170 and R173 to R177). -/
def f16To32With (quiet : Bool) (h : BitVec 16) : Word32 :=
  let sgn := h.extractLsb' 15 1
  let e := h.extractLsb' 10 5
  let m := h.extractLsb' 0 10
  if e = 0 ∧ m = 0 then sgn ++ 0#31
  else if e = 0 then
    let p := leadingOne m
    sgn ++ BitVec.ofNat 8 (p + 103) ++ BitVec.ofNat 23 ((m.toNat - 2 ^ p) * 2 ^ (23 - p))
  else if e = 31 ∧ m = 0 then sgn ++ 0xFF#8 ++ 0#23
  else if e = 31 then sgn ++ 0xFF#8 ++ nanFraction quiet m
  else sgn ++ BitVec.ofNat 8 (e.toNat + 112) ++ (m ++ 0#13)

/-- The conversion of this hardware. -/
def f16To32 (h : BitVec 16) : Word32 := f16To32With Config.f16SnanQuiet h

/-- F16TO32 (rule R170). -/
def execF16to32 (h : BitVec 16) (s : State) : Result := .next (s.drive { fOut := some (f16To32 h) })

end Sys2Proof.Machine
end

