-- ==== Sys2Proof/Machine/TelemetryCodec.lean ====
section
/-! DEFINITION. TelemetryCodec (44_payload_codec.md section 2): TELEM_DECODE, and the frames of the telemetry classes,
each decoded as its class says (rule R48). -/

namespace Sys2Proof.Machine

/-- The voltage sample as a binary32 pattern, in a voltage format (rules R179 and R196). -/
def voltageToSingle : VoltageFormat → BitVec 16 → Word32
  | .ieeeBinary16, h => f16To32 h

/-- The record of an 8-byte telemetry payload (rule R196). -/
def telemetryRecord (data : Bus) : TelemetryRecord :=
  { faultBits := getU16 data 0
    busVoltage := voltageToSingle Config.voltageFormat (getU16 data 2)
    speed := getU32 data 4 }

/-- The outcome of TELEM_DECODE, the class tested before the length (rules R197, R198 and R234). -/
def telemOutcome (id : Ident) (len : Len) (data : Bus) : TelemOutcome :=
  if classField id = Config.classTelemetry then
    if len = 8 then .record (telemetryRecord data) else .wrongLength
  else if classField id ∈ Config.classReserved then .reservedClass
  else .otherClass

/-- TELEM_DECODE (rule R197). -/
def execTelemDecode (id : Ident) (len : Len) (data : Bus) (s : State) : Result :=
  .next (s.drive (.ofTelem (telemOutcome id len data)))

/-- TELEMETRY_PRIMARY: TELEM_DECODE of a frame of class 0x180 (rules R48 and R199). -/
def execClassTelemetryPrimary (node : BitVec 7) (len : Len) (data : Bus) (s : State) : Result :=
  .next (s.drive (.ofTelem (telemOutcome (identOf Config.classTelemetry node) len data)))

/-- TELEMETRY_RESERVED, class 0x280: TELEM_DECODE gives no record (rules R48 and R201). -/
def execClassReserved280 (node : BitVec 7) (len : Len) (data : Bus) (s : State) : Result :=
  .next (s.drive (.ofTelem (telemOutcome (identOf Config.classReserved280 node) len data)))

/-- TELEMETRY_RESERVED, class 0x380: TELEM_DECODE gives no record (rules R48 and R201). -/
def execClassReserved380 (node : BitVec 7) (len : Len) (data : Bus) (s : State) : Result :=
  .next (s.drive (.ofTelem (telemOutcome (identOf Config.classReserved380 node) len data)))

/-- TELEMETRY_RESERVED, class 0x480: TELEM_DECODE gives no record (rules R48 and R201). -/
def execClassReserved480 (node : BitVec 7) (len : Len) (data : Bus) (s : State) : Result :=
  .next (s.drive (.ofTelem (telemOutcome (identOf Config.classReserved480 node) len data)))

end Sys2Proof.Machine
end

