-- ==== Sys2Proof/Machine/Dispatch.lean ====
section
/-! DEFINITION. The dispatch: one arm per constructor, each a direct call of that instruction's meaning. -/

namespace Sys2Proof.Machine

def exec (i : Instr) (s : State) : Host.Outcome State Fault Refusal :=
  match i with
  -- operation requests (rule R64)
  | .nop => Sys2Proof.Machine.execNop s
  | .feed b => Sys2Proof.Machine.execFeed b s
  | .encode id len data => Sys2Proof.Machine.execEncode id len data s
  | .compose node cls => Sys2Proof.Machine.execCompose node cls s
  | .nodeOf id => Sys2Proof.Machine.execNodeOf id s
  | .classOf id => Sys2Proof.Machine.execClassOf id s
  | .f16to32 h => Sys2Proof.Machine.execF16to32 h s
  | .telemDecode id len data => Sys2Proof.Machine.execTelemDecode id len data s
  | .cmdSpeed node speed => Sys2Proof.Machine.execCmdSpeed node speed s
  | .cmdStop node => Sys2Proof.Machine.execCmdStop node s
  | .cmdReset node => Sys2Proof.Machine.execCmdReset node s
  | .reservedB => Sys2Proof.Machine.execReservedB s
  | .reservedCToF low => Sys2Proof.Machine.execReservedCToF low s
  -- the sentence (rule R66)
  | .sentenceT body => Sys2Proof.Machine.execSentenceT body s
  -- command payloads (rule R75)
  | .payloadSpeedControl node speed => Sys2Proof.Machine.execPayloadSpeedControl node speed s
  | .payloadStop node => Sys2Proof.Machine.execPayloadStop node s
  | .payloadReset node => Sys2Proof.Machine.execPayloadReset node s
  -- identifier classes (rule R48)
  | .classTelemetryPrimary node len data => Sys2Proof.Machine.execClassTelemetryPrimary node len data s
  | .classCommand node data => Sys2Proof.Machine.execClassCommand node data s
  | .classReserved280 node len data => Sys2Proof.Machine.execClassReserved280 node len data s
  | .classReserved380 node len data => Sys2Proof.Machine.execClassReserved380 node len data s
  | .classReserved480 node len data => Sys2Proof.Machine.execClassReserved480 node len data s

end Sys2Proof.Machine
end

