-- ==== Sys2Proof/Machine/Step.lean ====
section
/-! DEFINITION. One step: the host presents one request (rule R60), the block reset takes precedence over it
(rules R234 and R260), and a host that presents nothing presents NOP (rule R208). -/

namespace Sys2Proof.Machine

/-- The decoded request's meaning; a request that is no instruction is refused by name. -/
def runRequest (r : Request) (s : State) : Host.Outcome State Fault Refusal :=
  if r.ports.rst then .next s.blockReset
  else
    match decode r with
    | .ok i => exec i s
    | .error e => .refused (.undecodable e)

/-- One step of the machine. -/
def step (s : State) : Host.Outcome State Fault Refusal :=
  match s.requests with
  | [] => exec .nop s
  | r :: rs => runRequest r (s.withRequests rs)

/-- The instruction of a word of spec/opcode_table.json as the host's next request. -/
def State.withFetchWord (s : State) (nbits w : Nat) : State :=
  { s with requests := requestOfWord nbits w :: s.requests }

end Sys2Proof.Machine
end

