-- ==== Sys2Proof/Safety.lean ====
section
/-! DEFINITION. What a run is held to, in the terms the statements use: the invariants of the decoder (rule R27), a
frame's shape (rule R11), the sentence position (rule R25), the current segment of a byte stream (rule R111), runs of
instructions and of steps with what the host sees of them, and the values of the two floating-point formats (rules R171
and R172). -/

namespace Sys2Proof.Machine

/-! ### Invariants -/

/-- A frame's shape (rule R11): the identifier's range is its width. -/
abbrev FrameOk (f : CanFrame) : Prop := f.length.toNat ≤ 8 ∧ f.payload.length = f.length.toNat

/-- Rule R27 (a): the identifier accumulated so far, in `ReadingId`. -/
abbrev IdInv (d : Decoder) : Prop :=
  d.st = .readingId →
    d.idCnt.toNat ≤ 2 ∧ d.idAcc.toNat < 16 ^ d.idCnt.toNat ∧
      (1 ≤ d.idCnt.toNat → d.idAcc.toNat < 8 * 16 ^ (d.idCnt.toNat - 1))

/-- Rule R27 (b): the identifier, once whole. -/
abbrev IdentInv (d : Decoder) : Prop := d.st = .readingLength ∨ d.st = .readingData → d.idAcc.toNat ≤ 0x7FF

/-- Rule R27 (c): the length and the digit counter, in `ReadingData`. -/
abbrev DataInv (d : Decoder) : Prop :=
  d.st = .readingData → d.dlc.toNat ≤ 8 ∧ d.nibCnt.toNat ≤ 2 * d.dlc.toNat

/-- The invariants of rule R27 (a) to (c). -/
abbrev DecoderInv (d : Decoder) : Prop := IdInv d ∧ IdentInv d ∧ DataInv d

/-- The sentence position (rule R25) as a number: the index, in the sentence, of the character that the next FEED
expects (rule R66's byte positions). -/
def sentencePosition (d : Decoder) : Nat :=
  match d.st with
  | .idle => 0
  | .readingId => 1 + d.idCnt.toNat
  | .readingLength => 4
  | .readingData => 5 + d.nibCnt.toNat

/-! ### Streams of bytes -/

/-- The current segment of the bytes fed since a reset: those since and including the most recent `'t'`, none where
there is none (rule R111). -/
def currentSegment : List Byte → List Byte
  | [] => []
  | b :: bs =>
    if charT ∈ bs then currentSegment bs
    else if b = charT then b :: bs
    else []

/-- The bytes an instruction feeds to the decoder. -/
def fedBytes : Instr → List Byte
  | .feed b => [b]
  | .sentenceT body => charT :: body
  | .nop | .encode _ _ _ | .compose _ _ | .nodeOf _ | .classOf _ | .f16to32 _ | .telemDecode _ _ _
  | .cmdSpeed _ _ | .cmdStop _ | .cmdReset _ | .reservedB | .reservedCToF _
  | .payloadSpeedControl _ _ | .payloadStop _ | .payloadReset _
  | .classTelemetryPrimary _ _ _ | .classCommand _ _ | .classReserved280 _ _ _
  | .classReserved380 _ _ _ | .classReserved480 _ _ _ => []

/-- The instructions that are not FEED nor a sentence of FEEDs: the pure ones (rules R21 and R47). -/
def isPure (i : Instr) : Bool := (fedBytes i).isEmpty

/-! ### Runs -/

/-- Instructions run one after the other, stopping at a stop: the last state and the outputs of each. -/
def runInstrs : List Instr → State → State × List Outputs
  | [], s => (s, [])
  | i :: is, s =>
    match exec i s with
    | .next t => ((runInstrs is t).1, t.out :: (runInstrs is t).2)
    | .fault _ => (s, [])
    | .refused _ => (s, [])

/-- What the host sees of `n` steps: the outputs of each, up to a stop. -/
def seenBySteps : Nat → State → List Outputs
  | 0, _ => []
  | n + 1, s =>
    match step s with
    | .next t => t.out :: seenBySteps n t
    | .fault _ => []
    | .refused _ => []

/-! ### Floating-point values -/

/-- The value of a finite binary16 (rule R171): `m × 2^-24` for `e = 0`, `2^(e-15) × (1 + m/1024)` for `e` in 1..30,
with the sign. -/
def halfValue (h : BitVec 16) : Rat :=
  let e := (h.extractLsb' 10 5).toNat
  let m := (h.extractLsb' 0 10).toNat
  let magnitude : Rat := if e = 0 then (m : Rat) / 2 ^ 24 else ((1024 + m : Nat) : Rat) * 2 ^ e / 2 ^ 25
  if h.msb then -magnitude else magnitude

/-- The value of a finite binary32 (rule R172): 1 sign bit, 8 exponent bits of bias 127, 23 fraction bits. -/
def singleValue (f : Word32) : Rat :=
  let e := (f.extractLsb' 23 8).toNat
  let m := (f.extractLsb' 0 23).toNat
  let magnitude : Rat := if e = 0 then (m : Rat) / 2 ^ 149 else ((2 ^ 23 + m : Nat) : Rat) * 2 ^ e / 2 ^ 150
  if f.msb then -magnitude else magnitude

end Sys2Proof.Machine
end

