-- ==== Sys2Proof/Certificates/Slice0/Obligations.lean ====
section
/-! DEFINITION. The statements for the provers. Each docstring names the rule it comes from, or says that it is the
model's own choice and names the assumption. An equation `exec i s = .next { s with … }` is an instruction's result, its
completion and its frame at once: every field it does not list is unchanged. -/

open Sys2Proof Sys2Proof.Machine

/-! ### The step and reset -/

/-- The step of a request is the meaning of the instruction it decodes to, on the state with the request taken; with
nothing presented it is NOP's. That the requests stand in a list, and that an empty one is NOP (after rule R208's "the step
in which the host has nothing to ask"), is the model's choice (assumption 1). -/
def Obligations.StepRunsDecodedRequest : Prop :=
  (∀ (s : State) (r : Request) (rs : List Request) (i : Instr),
    s.requests = r :: rs → r.ports.rst = false → decode r = .ok i → step s = exec i { s with requests := rs }) ∧
  (∀ s : State, s.requests = [] → step s = exec .nop s)

/-- Rule R260: reset takes precedence, nothing of the operation is performed, both strobes are 0; and an instance is
created with the same decoder. That no other output is driven is rule R63. -/
def Obligations.ResetTakesPrecedence : Prop :=
  (∀ (s : State) (r : Request) (rs : List Request), s.requests = r :: rs → r.ports.rst = true →
    step s = .next
      { dec := { st := .idle, idCnt := 0, idAcc := 0, dlc := 0, nibCnt := 0, buf := #v[0, 0, 0, 0, 0, 0, 0, 0] }
        requests := rs
        out := { frmValid := some false, telValid := some false } }) ∧
  State.reset.dec =
    { st := .idle, idCnt := 0, idAcc := 0, dlc := 0, nibCnt := 0, buf := #v[0, 0, 0, 0, 0, 0, 0, 0] }

/-- Rule R29, with the code of `Idle` (rule R23). -/
def Obligations.ResetValuesOfEveryField : Prop :=
  State.reset.dec.st = .idle ∧ State.reset.dec.st.code = 0 ∧ State.reset.dec.idCnt = 0 ∧
  State.reset.dec.idAcc = 0 ∧ State.reset.dec.dlc = 0 ∧ State.reset.dec.nibCnt = 0 ∧
  ∀ k : Fin 8, State.reset.dec.buf[k] = 0

/-- What the decoder rejects, and why: a text without the type character first, a text with bytes after a carriage return, a
payload with a code that is not of rule R75, a payload with a byte that rule R75 wants zero and is not; no operation request
and no identifier; and the step of what it rejects is refused with that reason. The encoding spaces are the model's choice
(assumption 2), and so is the refusal by name of what is no row (assumption 19). -/
def Obligations.OnlyMalformedTextOrPayloadIsUndecodable : Prop :=
  (∀ (r : Request) (e : DecodeError), decode r = .error e ↔
    (r.format = .slcanSentence ∧ e = .notASentence ∧ r.text.head? ≠ some 0x74) ∨
    (r.format = .slcanSentence ∧ e = .bytesAfterTerminator ∧
      ∃ pre post : List Byte, r.text = 0x74 :: (pre ++ 0x0D :: post) ∧ post ≠ []) ∨
    (r.format = .commandPayload ∧ e = .unknownCommandCode ∧ byteAt r.ports.dataIn 0 ∉ [0x20, 0x04, 0x01]) ∨
    (r.format = .commandPayload ∧ e = .nonZeroFill ∧
      ((byteAt r.ports.dataIn 0 = 0x20 ∧ ∃ k : Nat, 1 ≤ k ∧ k ≤ 3 ∧ byteAt r.ports.dataIn k ≠ 0) ∨
        (byteAt r.ports.dataIn 0 ∈ [0x04, 0x01] ∧ ∃ k : Nat, 1 ≤ k ∧ k ≤ 7 ∧ byteAt r.ports.dataIn k ≠ 0)))) ∧
  (∀ (s : State) (r : Request) (rs : List Request) (e : DecodeError), s.requests = r :: rs → r.ports.rst = false →
    decode r = .error e → step s = .refused (.undecodable e))

/-- Rule R22: the outputs of a step are held by nothing: no step reads those of the step before. That the last step's stand in
`State.out` is the model's choice (assumption 4). -/
def Obligations.OutputsAreNotState : Prop :=
  ∀ (s : State) (o : Outputs), step { s with out := o } = step s

/-! ### Decode and encode -/

/-- Decode and encode agree on every well-formed instruction. The encoding spaces are the model's choice (assumption 2). -/
def Obligations.DecodeOfEncode : Prop :=
  ∀ i : Instr, i.wellFormed = true → decode (encode i) = .ok i

/-- What decodes to an instruction is that instruction's encoding, on every input its encoding space reads: the bytes of a
sentence; the payload and the node of a command; the identifier, the payload and, but for a command identifier, the length of
a frame; the code of an operation and each operand port that rule R61 says it reads. The encoding spaces are the model's choice
(assumption 2), and so is that COMMAND reads no length (assumption 8). -/
def Obligations.EncodeOfDecode : Prop :=
  ∀ (r : Request) (i : Instr), decode r = .ok i →
    (r.format ≠ .identifierClass → (encode i).format = r.format) ∧
    (r.format = .slcanSentence → (encode i).text = r.text) ∧
    (r.format = .commandPayload →
      (encode i).ports.dataIn = r.ports.dataIn ∧ (encode i).ports.nodeIn = r.ports.nodeIn) ∧
    (r.format = .identifierClass →
      (encode i).ports.idIn = r.ports.idIn ∧ (encode i).ports.dataIn = r.ports.dataIn ∧
      (r.ports.idIn.toNat < 0x200 ∨ 0x27F < r.ports.idIn.toNat → (encode i).ports.lenIn = r.ports.lenIn)) ∧
    (r.format = .op →
      (encode i).ports.op = r.ports.op ∧
      (r.ports.op = 0x1 → (encode i).ports.inByte = r.ports.inByte) ∧
      (r.ports.op ∈ ([0x2, 0x4, 0x5, 0x7] : List (BitVec 4)) → (encode i).ports.idIn = r.ports.idIn) ∧
      (r.ports.op ∈ ([0x2, 0x7] : List (BitVec 4)) →
        (encode i).ports.lenIn = r.ports.lenIn ∧ (encode i).ports.dataIn = r.ports.dataIn) ∧
      (r.ports.op ∈ ([0x3, 0x8, 0x9, 0xA] : List (BitVec 4)) → (encode i).ports.nodeIn = r.ports.nodeIn) ∧
      (r.ports.op = 0x3 → (encode i).ports.clsIn = r.ports.clsIn) ∧
      (r.ports.op = 0x6 → (encode i).ports.hIn = r.ports.hIn) ∧
      (r.ports.op = 0x8 → (encode i).ports.speedIn = r.ports.speedIn))

/-- Words written out from the spec's encodings: rule R64's codes 0x1, 0x7, 0x8 and 0xE, the sentence of vector V10,
the Stop payload of rule R75 and the identifier 0x181 of vector V2. The encoding spaces are the model's choice
(assumption 2). -/
def Obligations.SpecWordsDecode : Prop :=
  decode { format := .op, ports := { op := 0b0001, inByte := 0x74 } } = .ok (.feed 0x74) ∧
  decode { format := .op, ports := { op := 0b0111, idIn := 0x181, lenIn := 8, dataIn := 0x42C800003C000001 } } =
    .ok (.telemDecode 0x181 8 0x42C800003C000001) ∧
  decode { format := .op, ports := { op := 0b1000, nodeIn := 5, speedIn := 0x42C80000 } } =
    .ok (.cmdSpeed 5 0x42C80000) ∧
  decode { format := .op, ports := { op := 0b1110 } } = .ok (.reservedCToF 0b10) ∧
  decode { format := .slcanSentence, text := [0x74, 0x31, 0x32, 0x33, 0x30, 0x0D] } =
    .ok (.sentenceT [0x31, 0x32, 0x33, 0x30, 0x0D]) ∧
  decode { format := .commandPayload, ports := { nodeIn := 5, dataIn := 0x04 } } = .ok (.payloadStop 5) ∧
  decode { format := .identifierClass, ports := { idIn := 0b00110000001, lenIn := 8 } } =
    .ok (.classTelemetryPrimary 1 8 0)

/-- Rule R64: all four bits of `op` choose the operation, and each operation reads the ports rule R61 gives it. -/
def Obligations.OperationCodes : Prop :=
  ∀ p : Ports,
    (p.op = 0x0 → decode { format := .op, ports := p } = .ok .nop) ∧
    (p.op = 0x1 → decode { format := .op, ports := p } = .ok (.feed p.inByte)) ∧
    (p.op = 0x2 → decode { format := .op, ports := p } = .ok (.encode p.idIn p.lenIn p.dataIn)) ∧
    (p.op = 0x3 → decode { format := .op, ports := p } = .ok (.compose p.nodeIn p.clsIn)) ∧
    (p.op = 0x4 → decode { format := .op, ports := p } = .ok (.nodeOf p.idIn)) ∧
    (p.op = 0x5 → decode { format := .op, ports := p } = .ok (.classOf p.idIn)) ∧
    (p.op = 0x6 → decode { format := .op, ports := p } = .ok (.f16to32 p.hIn)) ∧
    (p.op = 0x7 → decode { format := .op, ports := p } = .ok (.telemDecode p.idIn p.lenIn p.dataIn)) ∧
    (p.op = 0x8 → decode { format := .op, ports := p } = .ok (.cmdSpeed p.nodeIn p.speedIn)) ∧
    (p.op = 0x9 → decode { format := .op, ports := p } = .ok (.cmdStop p.nodeIn)) ∧
    (p.op = 0xA → decode { format := .op, ports := p } = .ok (.cmdReset p.nodeIn)) ∧
    (p.op = 0xB → decode { format := .op, ports := p } = .ok .reservedB) ∧
    (0xC ≤ p.op → decode { format := .op, ports := p } = .ok (.reservedCToF (p.op.setWidth 2)))

/-! ### FEED -/

/-- Rule R104: in `Idle`, `'t'` starts a sentence and every other byte changes nothing; no frame either way. -/
def Obligations.FeedInIdle : Prop :=
  ∀ (s : State) (b : Byte), s.dec.st = .idle →
    exec (.feed b) s = .next
      { s with
        dec := if b = 0x74 then { s.dec with st := .readingId, idCnt := 0, idAcc := 0 } else s.dec
        out := { frmValid := some false } }

/-- Rule R105: `'t'` discards the sentence in progress and starts a new one exactly as in `Idle`. -/
def Obligations.FeedRestartsOnTypeCharacter : Prop :=
  ∀ s : State,
    exec (.feed 0x74) s = .next
      { s with
        dec := { s.dec with st := .readingId, idCnt := 0, idAcc := 0 }
        out := { frmValid := some false } }

/-- Rule R106: an identifier digit is accepted unless it is a first digit above 7; anything else discards the
sentence. -/
def Obligations.FeedIdentifierDigit : Prop :=
  ∀ (s : State) (b : Byte), s.dec.st = .readingId → b ≠ 0x74 →
    (∀ v : Nibble, hexVal b = some v → ¬ (s.dec.idCnt = 0 ∧ 7 < v.toNat) →
      exec (.feed b) s = .next
        { s with
          dec := { s.dec with
            st := if s.dec.idCnt = 2 then .readingLength else .readingId
            idCnt := if s.dec.idCnt = 2 then 0 else s.dec.idCnt + 1
            idAcc := s.dec.idAcc * 16 + v.setWidth 11 }
          out := { frmValid := some false } }) ∧
    ((∀ v : Nibble, hexVal b = some v → s.dec.idCnt = 0 ∧ 7 < v.toNat) →
      exec (.feed b) s = .next { s with dec := { s.dec with st := .idle }, out := { frmValid := some false } })

/-- Rule R107: a length digit 0..8 is accepted; any other byte but `'t'` discards the sentence. -/
def Obligations.FeedLengthDigit : Prop :=
  ∀ (s : State) (b : Byte), s.dec.st = .readingLength → b ≠ 0x74 →
    (∀ v : Nibble, hexVal b = some v → v.toNat ≤ 8 →
      exec (.feed b) s = .next
        { s with dec := { s.dec with st := .readingData, dlc := v, nibCnt := 0 }, out := { frmValid := some false } }) ∧
    ((∀ v : Nibble, hexVal b = some v → 8 < v.toNat) →
      exec (.feed b) s = .next { s with dec := { s.dec with st := .idle }, out := { frmValid := some false } })

/-- Rule R108: a payload digit goes to cell `nib_cnt div 2`, a high nibble clearing the cell and a low one added to it;
no other cell changes. The premise is rule R27 (c). -/
def Obligations.FeedPayloadDigit : Prop :=
  ∀ (s : State) (b : Byte) (v : Nibble), DecoderInv s.dec → s.dec.st = .readingData → hexVal b = some v →
    s.dec.nibCnt.toNat < 2 * s.dec.dlc.toNat →
    ∃ buf' : Vector Byte 8,
      exec (.feed b) s = .next
        { s with dec := { s.dec with nibCnt := s.dec.nibCnt + 1, buf := buf' }, out := { frmValid := some false } } ∧
      ∀ j : Fin 8, buf'[j] =
        if j.val = s.dec.nibCnt.toNat / 2 then
          (if s.dec.nibCnt.toNat % 2 = 0 then BitVec.ofNat 8 (16 * v.toNat)
          else BitVec.ofNat 8 (s.dec.buf[j].toNat + v.toNat))
        else s.dec.buf[j]

/-- Rules R109 and R101: a carriage return after the last payload digit returns the frame, whole and in that step, with
the lanes past its length 0x00, and the decoder is idle; under rule R27 the frame has the shape of rule R11. -/
def Obligations.FeedTerminatorEmitsFrame : Prop :=
  ∀ s : State, s.dec.st = .readingData → s.dec.nibCnt.toNat = 2 * s.dec.dlc.toNat →
    ∃ data : Bus,
      exec (.feed 0x0D) s = .next
        { s with
          dec := { s.dec with st := .idle }
          out := { frmValid := some true, frmId := some s.dec.idAcc, frmLen := some s.dec.dlc, frmData := some data } } ∧
      (∀ k : Fin 8, byteAt data k = if k.val < s.dec.dlc.toNat then s.dec.buf[k] else 0) ∧
      (DecoderInv s.dec → FrameOk s.dec.frame ∧
        Outputs.frame
          { frmValid := some true, frmId := some s.dec.idAcc, frmLen := some s.dec.dlc, frmData := some data } =
            some { identifier := s.dec.idAcc, length := s.dec.dlc, payload := s.dec.frame.payload } ∧
        s.dec.frame.payload = s.dec.buf.toList.take s.dec.dlc.toNat)

/-- Rule R110: in `ReadingData` every byte but `'t'`, the next payload digit and the terminator in its place discards the
sentence. -/
def Obligations.FeedMalformedPayload : Prop :=
  ∀ (s : State) (b : Byte), s.dec.st = .readingData → b ≠ 0x74 →
    (hexVal b ≠ none → 2 * s.dec.dlc.toNat ≤ s.dec.nibCnt.toNat) →
    (b = 0x0D → s.dec.nibCnt.toNat ≠ 2 * s.dec.dlc.toNat) →
    exec (.feed b) s = .next { s with dec := { s.dec with st := .idle }, out := { frmValid := some false } }

/-- Rule R102: FEED answers a next state for every byte, which again satisfies rule R27, and touches nothing but the
decoder and the outputs. -/
def Obligations.FeedIsTotal : Prop :=
  ∀ (s : State) (b : Byte), DecoderInv s.dec →
    ∃ t : State, exec (.feed b) s = .next t ∧ DecoderInv t.dec ∧ t.requests = s.requests ∧
      (t.out.frmValid = some true ∨ t.out.frmValid = some false)

/-- Rule R232: a FEED that takes a sentence in progress back to `Idle` without a frame leaves exactly `st = Idle`, every
other field as it was, and one with `'t'` leaves exactly the start of a sentence. -/
def Obligations.RecoveryIsPrecise : Prop :=
  (∀ (s t : State) (b : Byte), s.dec.st ≠ .idle → exec (.feed b) s = .next t → t.dec.st = .idle →
    t.dec = { s.dec with st := .idle }) ∧
  (∀ (s t : State), exec (.feed 0x74) s = .next t → t.dec.st = .readingId ∧ t.dec.idCnt = 0 ∧ t.dec.idAcc = 0)

/-- Rule R25: the sentence position advances by at most one character a FEED or goes back to the start of a sentence
(1) or to `Idle` (0); in `ReadingData` it never passes the terminator, which rule R66 puts at `5 + 2n`; and its largest value
is that of (`ReadingData`, -, 16). -/
def Obligations.SentencePositionAdvancesByOne : Prop :=
  ∀ (s t : State) (b : Byte), DecoderInv s.dec → exec (.feed b) s = .next t →
    (sentencePosition t.dec = sentencePosition s.dec + 1 ∨ sentencePosition t.dec = 1 ∨ sentencePosition t.dec = 0) ∧
    (t.dec.st = .readingData → sentencePosition t.dec ≤ 5 + 2 * t.dec.dlc.toNat) ∧
    sentencePosition t.dec ≤ 5 + 16

/-- Rule R27: (a), (b) and (c) hold at reset. -/
def Obligations.ResetMeetsDecoderInvariant : Prop := DecoderInv State.reset.dec

/-- Rule R27: (a), (b) and (c) hold after every step, whatever it runs, given that they hold before it. -/
def Obligations.StepKeepsDecoderInvariant : Prop :=
  ∀ s t : State, DecoderInv s.dec → step s = .next t → DecoderInv t.dec

/-- Rule R111: after any bytes fed since a reset, a FEED returns a frame if and only if its current segment is exactly one
sentence, and then it is that sentence's frame. -/
def Obligations.EmissionIsTheCurrentSegmentsFrame : Prop :=
  ∀ (s : State) (bytes : List Byte) (b : Byte), s.dec = (feedBytes Decoder.reset bytes).1 →
    ∃ t : State, exec (.feed b) s = .next t ∧ t.out.frame = sentenceFrame (currentSegment (bytes ++ [b]))

/-- Rule R113: after any bytes whatever, from any decoder state, a well-formed sentence gives its frame on its last byte
and nothing before; and bytes fed since a reset that make no sentence at any point give nothing. -/
def Obligations.Resynchronisation : Prop :=
  (∀ (d : Decoder) (junk sentence : List Byte) (f : CanFrame), sentenceFrame sentence = some f →
    (feedBytes (feedBytes d junk).1 sentence).2 = List.replicate (sentence.length - 1) none ++ [some f] ∧
    (feedBytes (feedBytes d junk).1 sentence).1.st = .idle) ∧
  (∀ junk : List Byte, (∀ n : Nat, sentenceFrame (currentSegment (junk.take n)) = none) →
    (feedBytes Decoder.reset junk).2 = List.replicate junk.length none)

/-- Rule R115: the bytes of an encoded frame, fed from any decoder state, give that frame on the last byte and nothing
before it. -/
def Obligations.EncodeThenFeedRoundTrip : Prop :=
  ∀ (d : Decoder) (id : Ident) (len : Len) (data : Bus), len.toNat ≤ 8 →
    (feedBytes d (renderSentence id len data)).2 =
      List.replicate (5 + 2 * len.toNat) none ++
        [some { identifier := id, length := len, payload := payloadBytes data len.toNat }]

/-- Rule R112: over any well-formed instructions, the frames the host sees and the decoder's state depend only on the
bytes fed, however they are grouped into FEEDs and sentences and whatever other operations stand between them. That a sentence
is one instruction is the model's choice (assumption 6). -/
def Obligations.StreamingInvariance : Prop :=
  ∀ (is : List Instr) (s : State), DecoderInv s.dec → (∀ i ∈ is, i.wellFormed = true) →
    (runInstrs is s).1.dec = (feedBytes s.dec (is.flatMap fedBytes)).1 ∧
    (runInstrs is s).2.filterMap Outputs.frame = (feedBytes s.dec (is.flatMap fedBytes)).2.filterMap (fun o => o)

/-- Rule R28: two machines whose decoders are idle, whatever the other fields hold, show the host the same, for any
requests and any number of steps. -/
def Obligations.IdleStatesAreIndistinguishable : Prop :=
  ∀ (s t : State), s.dec.st = .idle → t.dec.st = .idle → s.requests = t.requests →
    ∀ n : Nat, seenBySteps n s = seenBySteps n t

/-- Rule R262: after a reset, in whatever sentence it came, the bytes that follow are ignored until the next `'t'`. -/
def Obligations.ResetDiscardsSentenceInProgress : Prop :=
  ∀ (s t : State) (r : Request) (rs : List Request) (bytes : List Byte),
    s.requests = r :: rs → r.ports.rst = true → step s = .next t → charT ∉ bytes →
    (feedBytes t.dec bytes).1 = t.dec ∧ (feedBytes t.dec bytes).2 = List.replicate bytes.length none

/-- The `t` row's meaning is the pseudo-operation of rule R78: one meaning for the sentence is as many steps as it has
bytes, each a FEED. That it is one step of the model is the model's choice (assumption 6). -/
def Obligations.SentenceIsItsFeeds : Prop :=
  ∀ (s : State) (body : List Byte) (rs : List Request),
    ∃ t : State, exec (.sentenceT body) { s with requests := rs } = .next t ∧
      Sys2Proof.core.run (body.length + 1) { s with requests := feedRequests (charT :: body) ++ rs } = .next t

/-- A well-formed sentence completes with its frame on the outputs and an idle decoder, from every state (rules R66, R70
to R72 and R113). That a sentence is one instruction, whose outputs are those of the last FEED, is the model's choice
(assumption 6). -/
def Obligations.WellFormedSentenceCompletes : Prop :=
  ∀ (s : State) (body : List Byte) (f : CanFrame), sentenceFrame (0x74 :: body) = some f →
    ∃ t : State, exec (.sentenceT body) s = .next t ∧ t.dec.st = .idle ∧ t.out.frame = some f ∧ FrameOk f ∧
      t.requests = s.requests

/-! ### ENCODE -/

/-- Rule R130: every byte of the sentence, its length, and nothing else changed. -/
def Obligations.EncodeRendersSentence : Prop :=
  ∀ (s : State) (id : Ident) (len : Len) (data : Bus), len.toNat ≤ 8 →
    ∃ sent : BitVec 176,
      exec (.encode id len data) s = .next
        { s with out := { sentLen := some (BitVec.ofNat 5 (6 + 2 * len.toNat)), sent := some sent } } ∧
      byteAt sent 0 = 0x74 ∧
      byteAt sent 1 = hexChar (BitVec.ofNat 4 (id.toNat / 0x100)) ∧
      byteAt sent 2 = hexChar (BitVec.ofNat 4 (id.toNat / 0x10)) ∧
      byteAt sent 3 = hexChar (BitVec.ofNat 4 id.toNat) ∧
      byteAt sent 4 = hexChar len ∧
      (∀ k : Nat, k < len.toNat →
        byteAt sent (5 + 2 * k) = hexChar (BitVec.ofNat 4 ((byteAt data k).toNat / 16)) ∧
        byteAt sent (6 + 2 * k) = hexChar (BitVec.ofNat 4 (byteAt data k).toNat)) ∧
      byteAt sent (5 + 2 * len.toNat) = 0x0D ∧
      (∀ j : Nat, 6 + 2 * len.toNat ≤ j → j < 22 → byteAt sent j = 0)

/-- Rule R132: a length of 9..15 is refused, by name. -/
def Obligations.EncodeRefusesLongLength : Prop :=
  ∀ (s : State) (id : Ident) (len : Len) (data : Bus), 9 ≤ len.toNat →
    exec (.encode id len data) s = .refused (.lengthAboveEight len)

/-- Rule R131: what ENCODE renders is one sentence of the grammar, it spells the frame encoded, and its only `'t'` is its
first byte. -/
def Obligations.EncodedSentenceIsWellFormed : Prop :=
  ∀ (id : Ident) (len : Len) (data : Bus), len.toNat ≤ 8 →
    sentenceFrame (renderSentence id len data) =
      some { identifier := id, length := len, payload := payloadBytes data len.toNat } ∧
    (renderSentence id len data).head? = some 0x74 ∧ (0x74 : Byte) ∉ (renderSentence id len data).tail

/-- Rules R68 and R69: the value of a hexadecimal digit, no value for any other byte, the lower-case character the encoder
writes, and the one undoing the other. -/
def Obligations.HexDigitsRoundTrip : Prop :=
  (∀ b : Byte, hexVal b =
    if 0x30 ≤ b.toNat ∧ b.toNat ≤ 0x39 then some (BitVec.ofNat 4 (b.toNat - 0x30))
    else if 0x41 ≤ b.toNat ∧ b.toNat ≤ 0x46 then some (BitVec.ofNat 4 (b.toNat - 0x41 + 10))
    else if 0x61 ≤ b.toNat ∧ b.toNat ≤ 0x66 then some (BitVec.ofNat 4 (b.toNat - 0x61 + 10))
    else none) ∧
  (∀ v : Nibble, (hexChar v).toNat = if v.toNat ≤ 9 then 0x30 + v.toNat else 0x61 + (v.toNat - 10)) ∧
  (∀ v : Nibble, hexVal (hexChar v) = some v)

/-! ### AddressCodec -/

/-- Rule R150: the sum of node and class reduced mod 2^11, for every operand, unchecked. -/
def Obligations.ComposeAddsModulo : Prop :=
  ∀ (s : State) (node cls : Ident),
    exec (.compose node cls) s =
      .next { s with out := { idOut := some (BitVec.ofNat 11 ((node.toNat + cls.toNat) % 2 ^ 11)) } }

/-- Rule R151: `id mod 0x80`. -/
def Obligations.NodeOfIsModulo : Prop :=
  ∀ (s : State) (id : Ident),
    exec (.nodeOf id) s = .next { s with out := { nodeOut := some (BitVec.ofNat 7 (id.toNat % 0x80)) } }

/-- Rule R152: `id - (id mod 0x80)`, always a multiple of 0x80. -/
def Obligations.ClassOfRoundsDown : Prop :=
  ∀ (s : State) (id : Ident),
    exec (.classOf id) s = .next { s with out := { clsOut := some (BitVec.ofNat 11 (id.toNat - id.toNat % 0x80)) } } ∧
    (id.toNat - id.toNat % 0x80) % 0x80 = 0

/-- Rule R153: the inverse laws, and no reduction within their range. -/
def Obligations.ComposeInverseLaws : Prop :=
  (∀ (node cls : Ident), node.toNat ≤ 0x7F → cls.toNat % 0x80 = 0 →
    (nodeField (composeIdent node cls)).toNat = node.toNat ∧ classField (composeIdent node cls) = cls ∧
    (composeIdent node cls).toNat = node.toNat + cls.toNat) ∧
  (∀ id : Ident, composeIdent ((nodeField id).setWidth 11) (classField id) = id)

/-! ### F16TO32 -/

/-- Rules R173 and R176: the zeros and the infinities, the sign kept. -/
def Obligations.F16ZerosAndInfinities : Prop :=
  ∀ s : State,
    exec (.f16to32 0x0000) s = .next { s with out := { fOut := some 0x00000000 } } ∧
    exec (.f16to32 0x8000) s = .next { s with out := { fOut := some 0x80000000 } } ∧
    exec (.f16to32 0x7C00) s = .next { s with out := { fOut := some 0x7F800000 } } ∧
    exec (.f16to32 0xFC00) s = .next { s with out := { fOut := some 0xFF800000 } }

/-- Rule R174: a normal number keeps its sign, its exponent is rebiased by 112, its mantissa stands at the top of the
fraction. -/
def Obligations.F16Normal : Prop :=
  ∀ (s : State) (h : BitVec 16), 1 ≤ (h.extractLsb' 10 5).toNat → (h.extractLsb' 10 5).toNat ≤ 30 →
    exec (.f16to32 h) s = .next
      { s with out :=
        { fOut := some (h.extractLsb' 15 1 ++ BitVec.ofNat 8 ((h.extractLsb' 10 5).toNat + 112) ++
            (h.extractLsb' 0 10 ++ 0#13)) } }

/-- Rule R175: a subnormal becomes a normal binary32: exponent `p + 103`, fraction `(m - 2^p)` shifted left by `23 - p`,
for the position `p` of the leading 1 of the mantissa `m`. -/
def Obligations.F16Subnormal : Prop :=
  ∀ (s : State) (h : BitVec 16) (p : Nat), h.extractLsb' 10 5 = 0 →
    2 ^ p ≤ (h.extractLsb' 0 10).toNat → (h.extractLsb' 0 10).toNat < 2 ^ (p + 1) →
    exec (.f16to32 h) s = .next
      { s with out :=
        { fOut := some (h.extractLsb' 15 1 ++ BitVec.ofNat 8 (p + 103) ++
            BitVec.ofNat 23 (((h.extractLsb' 0 10).toNat - 2 ^ p) * 2 ^ (23 - p))) } }

/-- Rule R177, at this hardware's `F16_SNAN_QUIET`: a NaN keeps its sign and its payload, the quiet bit as it is. -/
def Obligations.F16NaN : Prop :=
  ∀ (s : State) (h : BitVec 16), h.extractLsb' 10 5 = 31 → h.extractLsb' 0 10 ≠ 0 →
    exec (.f16to32 h) s = .next
      { s with out := { fOut := some (h.extractLsb' 15 1 ++ 255#8 ++ (h.extractLsb' 0 10 ++ 0#13)) } }

/-- Rule R178, its first half: on every finite input the result is finite, has the same value and the same sign, so nothing
is rounded; no binary32 subnormal is produced (rule R175). -/
def Obligations.F16IsExact : Prop :=
  ∀ h : BitVec 16, h.extractLsb' 10 5 ≠ 31 →
    singleValue (f16To32 h) = halfValue h ∧ (f16To32 h).msb = h.msb ∧ (f16To32 h).extractLsb' 23 8 ≠ 255 ∧
    ((f16To32 h).extractLsb' 23 8 = 0 → (f16To32 h).extractLsb' 0 23 = 0)

/-- Rule R178, its last sentence: the conversion is injective. -/
def Obligations.F16IsInjective : Prop :=
  ∀ g h : BitVec 16, f16To32 g = f16To32 h → g = h

/-! ### TELEM_DECODE -/

/-- Rules R199, R196, R203 and R41: an identifier of 0x180..0x1FF with length 8 gives a record, each field from its own
bytes, little-endian, the voltage converted and the speed bit for bit. -/
def Obligations.TelemetryRecordProduced : Prop :=
  ∀ (s : State) (id : Ident) (data : Bus), 0x180 ≤ id.toNat → id.toNat ≤ 0x1FF →
    exec (.telemDecode id 8 data) s = .next
      { s with out :=
        { telValid := some true, telStatus := some 0
          telFault := some (BitVec.ofNat 16 ((byteAt data 0).toNat + 256 * (byteAt data 1).toNat))
          telVoltage := some (f16To32 (BitVec.ofNat 16 ((byteAt data 2).toNat + 256 * (byteAt data 3).toNat)))
          telSpeed := some (BitVec.ofNat 32 ((byteAt data 4).toNat + 2 ^ 8 * (byteAt data 5).toNat +
            2 ^ 16 * (byteAt data 6).toNat + 2 ^ 24 * (byteAt data 7).toNat)) } }

/-- Rules R200 and R203: class 0x180 with another length gives no record, status 1. -/
def Obligations.TelemetryWrongLength : Prop :=
  ∀ (s : State) (id : Ident) (len : Len) (data : Bus), 0x180 ≤ id.toNat → id.toNat ≤ 0x1FF → len ≠ 8 →
    exec (.telemDecode id len data) s = .next { s with out := { telValid := some false, telStatus := some 1 } }

/-- Rules R201, R203 and R234 (b): the reserved classes give no record, status 2, whatever the length. -/
def Obligations.TelemetryReservedClasses : Prop :=
  ∀ (s : State) (id : Ident) (len : Len) (data : Bus),
    (0x280 ≤ id.toNat ∧ id.toNat ≤ 0x2FF) ∨ (0x380 ≤ id.toNat ∧ id.toNat ≤ 0x3FF) ∨
      (0x480 ≤ id.toNat ∧ id.toNat ≤ 0x4FF) →
    exec (.telemDecode id len data) s = .next { s with out := { telValid := some false, telStatus := some 2 } }

/-- Rules R202 and R203: every other class gives no record, status 3, whatever the length. -/
def Obligations.TelemetryOtherClasses : Prop :=
  ∀ (s : State) (id : Ident) (len : Len) (data : Bus),
    id.toNat / 0x80 ∈ [0, 1, 2, 4, 6, 8, 10, 11, 12, 13, 14, 15] →
    exec (.telemDecode id len data) s = .next { s with out := { telValid := some false, telStatus := some 3 } }

/-- Rule R44: a 32-bit field is its low half at `off` and its high half at `off + 2`, and rules R190 and R191 give the
numbers. -/
def Obligations.FieldsAreLittleEndian : Prop :=
  ∀ data : Bus,
    (∀ off : Fin 7, (getU16 data off).toNat =
      (byteAt data off.val).toNat + 256 * (byteAt data (off.val + 1)).toNat) ∧
    (∀ off : Fin 5, (getU32 data off).toNat =
      (byteAt data off.val).toNat + 2 ^ 8 * (byteAt data (off.val + 1)).toNat +
        2 ^ 16 * (byteAt data (off.val + 2)).toNat + 2 ^ 24 * (byteAt data (off.val + 3)).toNat) ∧
    (∀ off : Fin 5, getU32 data off =
      getU16 data ⟨off.val + 2, by omega⟩ ++ getU16 data ⟨off.val, by omega⟩)

/-- Rule R192: PutU32 writes its four bytes, the lowest first, and leaves the others; PutU8 writes one; Zero8 is zero. -/
def Obligations.PutFieldsWriteTheirBytesOnly : Prop :=
  (∀ (data : Bus) (off : Fin 5) (v : Word32) (k : Fin 8), byteAt (putU32 data off v) k =
    if off.val ≤ k.val ∧ k.val < off.val + 4 then byteAt v (k.val - off.val) else byteAt data k) ∧
  (∀ (data : Bus) (off k : Fin 8) (v : Byte), byteAt (putU8 data off v) k = if k = off then v else byteAt data k) ∧
  (∀ k : Fin 8, byteAt zero8 k = 0)

/-! ### Commands -/

/-- Rule R205 (and R204, R78): CMD_SPEED answers what ENCODE answers for the composed identifier and the payload of
code 0x20, three zero bytes and the speed, little-endian. -/
def Obligations.CmdSpeedRendersSpeedControl : Prop :=
  ∀ (s : State) (node : Ident) (speed : Word32),
    ∃ t : State, exec (.cmdSpeed node speed) s = .next t ∧
      exec (.encode (node + 0x200) 8 (BitVec.ofNat 64 (0x20 + 2 ^ 32 * speed.toNat))) s = .next t ∧ t.out.sentLen = some 22 ∧
      t.dec = s.dec ∧ t.requests = s.requests

/-- Rule R206 (and R204, R78): CMD_STOP answers what ENCODE answers for the composed identifier and the payload 0x04. -/
def Obligations.CmdStopRendersStop : Prop :=
  ∀ (s : State) (node : Ident),
    ∃ t : State, exec (.cmdStop node) s = .next t ∧
      exec (.encode (node + 0x200) 8 0x04) s = .next t ∧ t.out.sentLen = some 22 ∧
      t.dec = s.dec ∧ t.requests = s.requests

/-- Rule R207 (and R204, R78, R13): CMD_RESET answers what ENCODE answers for the composed identifier and the payload
0x01, and the block is not reset. -/
def Obligations.CmdResetRendersReset : Prop :=
  ∀ (s : State) (node : Ident),
    ∃ t : State, exec (.cmdReset node) s = .next t ∧
      exec (.encode (node + 0x200) 8 0x01) s = .next t ∧ t.out.sentLen = some 22 ∧
      t.dec = s.dec ∧ t.requests = s.requests

/-- The three command payloads of rule R75, handed to CommandCodec for a node, complete as the command operation of the
same name. That these rows run as CommandCodec is the model's choice (assumption 7). -/
def Obligations.PayloadRowsRenderTheirCommand : Prop :=
  ∀ (s : State) (node : Ident) (speed : Word32),
    (∃ t : State, exec (.payloadSpeedControl node speed) s = .next t ∧ exec (.cmdSpeed node speed) s = .next t ∧
      t.dec = s.dec ∧ t.requests = s.requests) ∧
    (∃ t : State, exec (.payloadStop node) s = .next t ∧ exec (.cmdStop node) s = .next t ∧
      t.dec = s.dec ∧ t.requests = s.requests) ∧
    (∃ t : State, exec (.payloadReset node) s = .next t ∧ exec (.cmdReset node) s = .next t ∧
      t.dec = s.dec ∧ t.requests = s.requests)

/-- A payload under an identifier of the command class completes as rule R204 renders it. That the COMMAND row is the
sending side is the model's choice (assumption 8). -/
def Obligations.CommandClassRendersPayload : Prop :=
  ∀ (s : State) (node : BitVec 7) (data : Bus),
    ∃ t : State, exec (.classCommand node data) s = .next t ∧
      exec (.encode (BitVec.ofNat 11 (0x200 + node.toNat)) 8 data) s = .next t ∧ t.out.sentLen = some 22 ∧
      t.dec = s.dec ∧ t.requests = s.requests

/-- Frames of the telemetry classes complete as TELEM_DECODE of their identifier (rules R48, R199 and R201). That these
rows run as TELEM_DECODE is the model's choice (assumption 8). -/
def Obligations.TelemetryClassRowsDecode : Prop :=
  ∀ (s : State) (node : BitVec 7) (len : Len) (data : Bus),
    (∃ t : State, exec (.classTelemetryPrimary node len data) s = .next t ∧
      exec (.telemDecode (BitVec.ofNat 11 (0x180 + node.toNat)) len data) s = .next t ∧
      t.out.telValid = some (len == 8) ∧ t.dec = s.dec ∧ t.requests = s.requests) ∧
    exec (.classReserved280 node len data) s =
      .next { s with out := { telValid := some false, telStatus := some 2 } } ∧
    exec (.classReserved380 node len data) s =
      .next { s with out := { telValid := some false, telStatus := some 2 } } ∧
    exec (.classReserved480 node len data) s =
      .next { s with out := { telValid := some false, telStatus := some 2 } }

/-! ### NOP and the reserved codes -/

/-- Rule R208: NOP changes nothing and drives both strobes 0. -/
def Obligations.NopChangesNothing : Prop :=
  ∀ s : State, exec .nop s = .next { s with out := { frmValid := some false, telValid := some false } }

/-- Rule R209: the reserved codes behave as NOP. -/
def Obligations.ReservedCodesAreNop : Prop :=
  ∀ (s : State) (low : BitVec 2),
    exec .reservedB s = .next { s with out := { frmValid := some false, telValid := some false } } ∧
    exec (.reservedCToF low) s = .next { s with out := { frmValid := some false, telValid := some false } }

/-! ### The pure operations -/

/-- Rules R21 and R47: an instruction that feeds no byte changes no state, and no instruction touches the host's
requests, a list by the model's choice (assumption 1). -/
def Obligations.OnlyFeedChangesDecoder : Prop :=
  ∀ (i : Instr) (s t : State), exec i s = .next t →
    (isPure i = true → t.dec = s.dec) ∧ t.requests = s.requests

/-- Rules R21, R47 and R261: what a pure instruction answers depends on its operands only: it answers in every state or in
none, with the same outputs, before and after a reset; issued again it gives the same result and changes nothing. -/
def Obligations.PureOutputsDependOnOperandsOnly : Prop :=
  ∀ (i : Instr) (s t s' : State), isPure i = true → exec i s = .next s' →
    (∃ t' : State, exec i t = .next t' ∧ t'.out = s'.out ∧ t'.dec = t.dec) ∧ exec i s' = .next s'

/-- Rule R50 (d): an operation other than FEED commutes with every FEED: the same decoder state, the same outputs of
each. -/
def Obligations.FeedCommutesWithPureInstructions : Prop :=
  ∀ (i : Instr) (b : Byte) (s t u : State), isPure i = true → exec i s = .next t → exec (.feed b) s = .next u →
    ∃ t' u' : State, exec (.feed b) t = .next u' ∧ exec i u = .next t' ∧
      u'.out = u.out ∧ t'.out = t.out ∧ u'.dec = t'.dec
end

