-- ==== Sys2Proof/Laws/Bytes.lean ====
section
/-! SUPPORT. What a byte of a bus reads, after bytes are laid on it or one is replaced. -/

namespace Sys2Proof.Machine

/-- A bit of bytes laid on a bus: of the first byte below bit 8, of the rest above. -/
theorem getLsbD_packBytes_cons (w : Nat) (b : Byte) (bs : List Byte) (i : Nat) (hi : i < w) :
    (packBytes w (b :: bs)).getLsbD i = if i < 8 then b.getLsbD i else (packBytes w bs).getLsbD (i - 8) := by
  by_cases h : i < 8
  · simp [packBytes, h, hi]
  · have : b.getLsbD i = false := BitVec.getLsbD_of_ge b i (by omega)
    simp only [packBytes, BitVec.getLsbD_or, BitVec.getLsbD_shiftLeft, BitVec.getLsbD_setWidth, h, hi, this]
    simp

/-- A byte within the bus reads the byte laid there, 0x00 past the list (rule R62). -/
theorem byteAt_packBytes (w : Nat) (bs : List Byte) (k : Nat) (hk : 8 * k + 8 ≤ w) :
    byteAt (packBytes w bs) k = bs.getD k 0 := by
  induction bs generalizing k with
  | nil => simp [packBytes, byteAt]
  | cons b bs ih =>
    apply BitVec.eq_of_getLsbD_eq
    intro i hi
    rw [byteAt, BitVec.getLsbD_extractLsb']
    rw [getLsbD_packBytes_cons w b bs (8 * k + i) (by omega)]
    cases k with
    | zero => simp [hi]
    | succ k =>
      have := congrArg (fun v => v.getLsbD i) (ih k (by omega))
      simp only [byteAt, BitVec.getLsbD_extractLsb'] at this
      rw [show 8 * (k + 1) + i - 8 = 8 * k + i by omega]
      simpa [hi, show ¬ 8 * (k + 1) + i < 8 by omega] using this

/-- A byte of a bus with one byte replaced. -/
theorem byteAt_setByte (data : Bus) (k j : Nat) (b : Byte) (hk : k < 8) (hj : j < 8) :
    byteAt (setByte data k b) j = if j = k then b else byteAt data j := by
  apply BitVec.eq_of_getLsbD_eq
  intro i hi
  have hff : ∀ n, (0xFF#64 : BitVec 64).getLsbD n = decide (n < 8) := by
    intro n
    by_cases hn : n < 64
    · interval_cases n <;> rfl
    · simp [BitVec.getLsbD_of_ge _ n (by omega : 64 ≤ n)]; omega
  by_cases h : j = k
  · subst h
    simp [byteAt, setByte, hff, show 8 * j + i < 64 by omega, hi]
  · rcases Nat.lt_or_gt_of_ne h with h' | h'
    · simp [byteAt, setByte, h, hi, show 8 * j + i < 64 by omega, show 8 * j + i < 8 * k by omega]
    · have : b.getLsbD (8 * j + i - 8 * k) = false := BitVec.getLsbD_of_ge b _ (by omega)
      have hz := hff (8 * j + i - 8 * k)
      rw [decide_eq_false (by omega)] at hz
      simp only [byteAt, setByte, BitVec.getLsbD_extractLsb', BitVec.getLsbD_or, BitVec.getLsbD_and,
        BitVec.getLsbD_not, BitVec.getLsbD_shiftLeft, BitVec.getLsbD_setWidth, h, hi, this, hz]
      simp [hi, show 8 * j + i < 64 by omega]

/-- Two buses whose bytes agree are equal. -/
theorem bus_ext (v w : Bus) (h : ∀ k, k < 8 → byteAt v k = byteAt w k) : v = w := by
  apply BitVec.eq_of_getLsbD_eq
  intro i hi
  have := congrArg (fun b => b.getLsbD (i % 8)) (h (i / 8) (by omega))
  simpa [byteAt, show i % 8 < 8 by omega, show 8 * (i / 8) + i % 8 = i by omega] using this

@[simp] theorem length_payloadBytes (data : Bus) (n : Nat) : (payloadBytes data n).length = n := by
  simp [payloadBytes]

/-- A payload of at most eight bytes laid on a bus and read back is itself. -/
theorem payloadBytes_packBytes (p : List Byte) (h : p.length ≤ 8) : payloadBytes (packBytes 64 p) p.length = p := by
  apply List.ext_getElem (by simp)
  intro k h1 h2
  simp only [payloadBytes, List.getElem_map, List.getElem_range]
  rw [byteAt_packBytes 64 p k (by omega)]
  simp [h2]

end Sys2Proof.Machine
end

