-- ==== Sys2Proof/Laws/Hex.lean ====
section
/-! SUPPORT. Hexadecimal digits: which bytes are none (rule R68), and what the encoder's characters are (rule R69). -/

namespace Sys2Proof.Machine

@[simp] theorem hexVal_charT : hexVal charT = none := by decide
@[simp] theorem hexVal_charCR : hexVal charCR = none := by decide
@[simp] theorem charT_ne_charCR : charT ≠ charCR := by decide

/-- A byte that has a value is not the type character. -/
theorem ne_charT_of_hexVal {b : Byte} {v : Nibble} (h : hexVal b = some v) : b ≠ charT := by
  rintro rfl; simp at h

/-- A byte that has a value is not the terminator. -/
theorem ne_charCR_of_hexVal {b : Byte} {v : Nibble} (h : hexVal b = some v) : b ≠ charCR := by
  rintro rfl; simp at h

/-- The encoder never writes the type character for a digit (rule R131). -/
theorem hexChar_ne_charT (v : Nibble) : hexChar v ≠ charT := by
  revert v; decide

/-- The encoder never writes the terminator for a digit. -/
theorem hexChar_ne_charCR (v : Nibble) : hexChar v ≠ charCR := by
  revert v; decide

end Sys2Proof.Machine
end

