-- ==== Sys2Proof/Laws/State.lean ====
section
/-! SUPPORT. One lemma per field per update of the state and of the decoder, so that no proof unfolds a record update. -/

namespace Sys2Proof.Machine

/-! ### The state's updates -/

@[simp] theorem State.drive_dec (s : State) (o : Outputs) : (s.drive o).dec = s.dec := rfl
@[simp] theorem State.drive_requests (s : State) (o : Outputs) : (s.drive o).requests = s.requests := rfl
@[simp] theorem State.drive_out (s : State) (o : Outputs) : (s.drive o).out = o := rfl
@[simp] theorem State.drive_drive (s : State) (o p : Outputs) : (s.drive o).drive p = s.drive p := rfl

@[simp] theorem State.withDecoder_dec (s : State) (d : Decoder) : (s.withDecoder d).dec = d := rfl
@[simp] theorem State.withDecoder_requests (s : State) (d : Decoder) : (s.withDecoder d).requests = s.requests := rfl
@[simp] theorem State.withDecoder_out (s : State) (d : Decoder) : (s.withDecoder d).out = s.out := rfl

@[simp] theorem State.withRequests_dec (s : State) (rs : List Request) : (s.withRequests rs).dec = s.dec := rfl
@[simp] theorem State.withRequests_requests (s : State) (rs : List Request) : (s.withRequests rs).requests = rs := rfl
@[simp] theorem State.withRequests_out (s : State) (rs : List Request) : (s.withRequests rs).out = s.out := rfl

@[simp] theorem State.blockReset_dec (s : State) : s.blockReset.dec = Decoder.reset := rfl
@[simp] theorem State.blockReset_requests (s : State) : s.blockReset.requests = s.requests := rfl
@[simp] theorem State.blockReset_out (s : State) : s.blockReset.out = Outputs.noResult := rfl

/-! ### The decoder's updates -/

@[simp] theorem Decoder.recover_st (d : Decoder) : d.recover.st = .idle := rfl
@[simp] theorem Decoder.recover_idCnt (d : Decoder) : d.recover.idCnt = d.idCnt := rfl
@[simp] theorem Decoder.recover_idAcc (d : Decoder) : d.recover.idAcc = d.idAcc := rfl
@[simp] theorem Decoder.recover_dlc (d : Decoder) : d.recover.dlc = d.dlc := rfl
@[simp] theorem Decoder.recover_nibCnt (d : Decoder) : d.recover.nibCnt = d.nibCnt := rfl
@[simp] theorem Decoder.recover_buf (d : Decoder) : d.recover.buf = d.buf := rfl

@[simp] theorem Decoder.startSentence_st (d : Decoder) : d.startSentence.st = .readingId := rfl
@[simp] theorem Decoder.startSentence_idCnt (d : Decoder) : d.startSentence.idCnt = 0 := rfl
@[simp] theorem Decoder.startSentence_idAcc (d : Decoder) : d.startSentence.idAcc = 0 := rfl
@[simp] theorem Decoder.startSentence_dlc (d : Decoder) : d.startSentence.dlc = d.dlc := rfl
@[simp] theorem Decoder.startSentence_nibCnt (d : Decoder) : d.startSentence.nibCnt = d.nibCnt := rfl
@[simp] theorem Decoder.startSentence_buf (d : Decoder) : d.startSentence.buf = d.buf := rfl

@[simp] theorem Decoder.acceptIdDigit_st (d : Decoder) (v : Nibble) :
    (d.acceptIdDigit v).st = if d.idCnt = 2 then .readingLength else d.st := by
  unfold Decoder.acceptIdDigit; split <;> rfl
@[simp] theorem Decoder.acceptIdDigit_idCnt (d : Decoder) (v : Nibble) :
    (d.acceptIdDigit v).idCnt = if d.idCnt = 2 then 0 else d.idCnt + 1 := by
  unfold Decoder.acceptIdDigit; split <;> rfl
@[simp] theorem Decoder.acceptIdDigit_idAcc (d : Decoder) (v : Nibble) :
    (d.acceptIdDigit v).idAcc = d.idAcc * 16 + v.setWidth 11 := by
  unfold Decoder.acceptIdDigit; split <;> rfl
@[simp] theorem Decoder.acceptIdDigit_dlc (d : Decoder) (v : Nibble) : (d.acceptIdDigit v).dlc = d.dlc := by
  unfold Decoder.acceptIdDigit; split <;> rfl
@[simp] theorem Decoder.acceptIdDigit_nibCnt (d : Decoder) (v : Nibble) :
    (d.acceptIdDigit v).nibCnt = d.nibCnt := by
  unfold Decoder.acceptIdDigit; split <;> rfl
@[simp] theorem Decoder.acceptIdDigit_buf (d : Decoder) (v : Nibble) : (d.acceptIdDigit v).buf = d.buf := by
  unfold Decoder.acceptIdDigit; split <;> rfl

@[simp] theorem Decoder.acceptLength_st (d : Decoder) (v : Nibble) : (d.acceptLength v).st = .readingData := rfl
@[simp] theorem Decoder.acceptLength_idCnt (d : Decoder) (v : Nibble) : (d.acceptLength v).idCnt = d.idCnt := rfl
@[simp] theorem Decoder.acceptLength_idAcc (d : Decoder) (v : Nibble) : (d.acceptLength v).idAcc = d.idAcc := rfl
@[simp] theorem Decoder.acceptLength_dlc (d : Decoder) (v : Nibble) : (d.acceptLength v).dlc = v := rfl
@[simp] theorem Decoder.acceptLength_nibCnt (d : Decoder) (v : Nibble) : (d.acceptLength v).nibCnt = 0 := rfl
@[simp] theorem Decoder.acceptLength_buf (d : Decoder) (v : Nibble) : (d.acceptLength v).buf = d.buf := rfl

@[simp] theorem Decoder.acceptNibble_st (d : Decoder) (v : Nibble) : (d.acceptNibble v).st = d.st := rfl
@[simp] theorem Decoder.acceptNibble_idCnt (d : Decoder) (v : Nibble) : (d.acceptNibble v).idCnt = d.idCnt := rfl
@[simp] theorem Decoder.acceptNibble_idAcc (d : Decoder) (v : Nibble) : (d.acceptNibble v).idAcc = d.idAcc := rfl
@[simp] theorem Decoder.acceptNibble_dlc (d : Decoder) (v : Nibble) : (d.acceptNibble v).dlc = d.dlc := rfl
@[simp] theorem Decoder.acceptNibble_nibCnt (d : Decoder) (v : Nibble) :
    (d.acceptNibble v).nibCnt = d.nibCnt + 1 := rfl
@[simp] theorem Decoder.acceptNibble_buf (d : Decoder) (v : Nibble) :
    (d.acceptNibble v).buf = d.buf.setIfInBounds (d.nibCnt.toNat / 2)
      (nibbleInto (d.buf.getD (d.nibCnt.toNat / 2) 0) d.nibCnt v) := rfl

/-! ### The outputs -/

@[simp] theorem Outputs.frame_noResult : Outputs.noResult.frame = none := rfl
@[simp] theorem Outputs.frame_ofFeed_none : (Outputs.ofFeed none).frame = none := rfl
@[simp] theorem Outputs.frame_ofSentence (bytes : List Byte) : (Outputs.ofSentence bytes).frame = none := rfl
@[simp] theorem Outputs.frame_ofTelem (o : TelemOutcome) : (Outputs.ofTelem o).frame = none := rfl
@[simp] theorem Outputs.frmValid_ofFeed (f : Option CanFrame) :
    (Outputs.ofFeed f).frmValid = some f.isSome := by
  cases f <;> rfl

end Sys2Proof.Machine
end

