-- ==== Sys2Proof/Laws/FrameDecoder.lean ====
section
/-! SUPPORT. What one FEED can do, said once, and the laws of feeding many bytes. -/

namespace Sys2Proof.Machine

/-- Everything one FEED can do: start a sentence; ignore a byte in `Idle`; discard the sentence in progress; accept an
identifier digit, a length digit or a payload digit; complete the sentence. -/
theorem feedByte_cases (d : Decoder) (b : Byte) :
    (b = charT ∧ feedByte d b = (d.startSentence, none)) ∨
    (b ≠ charT ∧ d.st = .idle ∧ feedByte d b = (d, none)) ∨
    (b ≠ charT ∧ d.st ≠ .idle ∧ feedByte d b = (d.recover, none)) ∨
    (∃ v, hexVal b = some v ∧ d.st = .readingId ∧ ¬ (d.idCnt = 0 ∧ v > 7) ∧
      feedByte d b = (d.acceptIdDigit v, none)) ∨
    (∃ v, hexVal b = some v ∧ d.st = .readingLength ∧ ¬ v > Config.maxDlc ∧
      feedByte d b = (d.acceptLength v, none)) ∨
    (∃ v, hexVal b = some v ∧ d.st = .readingData ∧ d.nibCnt.toNat < 2 * d.dlc.toNat ∧
      feedByte d b = (d.acceptNibble v, none)) ∨
    (b = charCR ∧ d.st = .readingData ∧ d.nibCnt.toNat = 2 * d.dlc.toNat ∧
      feedByte d b = (d.recover, some d.frame)) := by
  by_cases ht : b = charT
  · exact .inl ⟨ht, by simp [feedByte, ht]⟩
  refine .inr ?_
  rcases hst : d.st with _ | _ | _ | _
  · exact .inl ⟨ht, rfl, by simp [feedByte, ht, hst]⟩
  all_goals refine .inr ?_
  · rcases hv : hexVal b with _ | v
    · exact .inl ⟨ht, by simp, by simp [feedByte, ht, hst, hv, feedReadingId]⟩
    · by_cases hx : d.idCnt = 0 ∧ v > 7
      · exact .inl ⟨ht, by simp,
          by simp only [feedByte, ht, hst, hv, feedReadingId, if_false]; rw [if_pos hx]⟩
      · exact .inr (.inl ⟨v, rfl, rfl, hx, by simp only [feedByte, ht, hst, hv, feedReadingId, hx, if_false]⟩)
  · rcases hv : hexVal b with _ | v
    · exact .inl ⟨ht, by simp, by simp [feedByte, ht, hst, hv, feedReadingLength]⟩
    · by_cases hx : v > Config.maxDlc
      · exact .inl ⟨ht, by simp, by simp only [feedByte, ht, hst, hv, feedReadingLength, hx, if_true, if_false]⟩
      · exact .inr (.inr (.inl ⟨v, rfl, rfl, hx,
          by simp only [feedByte, ht, hst, hv, feedReadingLength, hx, if_false]⟩))
  · rcases hv : hexVal b with _ | v
    · by_cases hx : b = charCR ∧ d.nibCnt.toNat = 2 * d.dlc.toNat
      · exact .inr (.inr (.inr (.inr ⟨hx.1, rfl, hx.2,
          by simp only [feedByte, ht, hst, hv, feedReadingData, if_false]; rw [if_pos hx]⟩)))
      · exact .inl ⟨ht, by simp, by simp only [feedByte, ht, hst, hv, feedReadingData, hx, if_false]⟩
    · by_cases hx : d.nibCnt.toNat < 2 * d.dlc.toNat
      · exact .inr (.inr (.inr (.inl ⟨v, rfl, rfl, hx,
          by simp only [feedByte, ht, hst, hv, feedReadingData, hx, if_true, if_false]⟩)))
      · exact .inl ⟨ht, by simp, by simp only [feedByte, ht, hst, hv, feedReadingData, hx, if_false]⟩

@[simp] theorem feedBytes_nil (d : Decoder) : feedBytes d [] = (d, []) := rfl

theorem feedBytes_cons (d : Decoder) (b : Byte) (bs : List Byte) :
    feedBytes d (b :: bs) =
      ((feedBytes (feedByte d b).1 bs).1, (feedByte d b).2 :: (feedBytes (feedByte d b).1 bs).2) := rfl

/-- Feeding two runs of bytes is feeding the one and then the other. -/
theorem feedBytes_append (d : Decoder) (xs ys : List Byte) :
    feedBytes d (xs ++ ys) =
      ((feedBytes (feedBytes d xs).1 ys).1, (feedBytes d xs).2 ++ (feedBytes (feedBytes d xs).1 ys).2) := by
  induction xs generalizing d with
  | nil => simp
  | cons b bs ih => simp [feedBytes_cons, ih]

@[simp] theorem length_feedBytes (d : Decoder) (bs : List Byte) : (feedBytes d bs).2.length = bs.length := by
  induction bs generalizing d with
  | nil => rfl
  | cons b bs ih => simp [feedBytes_cons, ih]

end Sys2Proof.Machine
end

