-- ==== Sys2Proof/Laws/Exec.lean ====
section
/-! SUPPORT. What the dispatch can answer, said once: each meaning either drives outputs that do not depend on the state,
or feeds bytes, or refuses a length. -/

namespace Sys2Proof.Machine

/-- What an instruction that feeds no byte answers: the same outputs in every state, or the same refusal. -/
theorem exec_pure (i : Instr) (h : isPure i = true) :
    (∃ o : Outputs, o.frame = none ∧ ∀ s, exec i s = .next (s.drive o)) ∨
    (∃ r : Refusal, i.wellFormed = false ∧ ∀ s, exec i s = .refused r) := by
  cases i with
  | feed b => simp [isPure, fedBytes] at h
  | sentenceT body => simp [isPure, fedBytes] at h
  | encode id len data =>
    by_cases hl : len ≤ Config.maxDlc
    · exact .inl ⟨_, Outputs.frame_ofSentence (renderSentence id len data), fun s => by simp only [exec, execEncode, hl, if_true]⟩
    · refine .inr ⟨.lengthAboveEight len, ?_, fun s => by simp only [exec, execEncode, hl, if_false]⟩
      simpa [Instr.wellFormed, lengthOk] using hl
  | nop | compose | nodeOf | classOf | f16to32 | telemDecode | cmdSpeed | cmdStop | cmdReset | reservedB
  | reservedCToF | payloadSpeedControl | payloadStop | payloadReset | classTelemetryPrimary | classCommand
  | classReserved280 | classReserved380 | classReserved480 => exact .inl ⟨_, rfl, fun s => rfl⟩

@[simp] theorem exec_feed (b : Byte) (s : State) :
    exec (.feed b) s = .next ((s.withDecoder (feedByte s.dec b).1).drive (.ofFeed (feedByte s.dec b).2)) := rfl

@[simp] theorem exec_sentenceT (body : List Byte) (s : State) :
    exec (.sentenceT body) s = .next ((s.withDecoder (feedBytes s.dec (charT :: body)).1).drive
      (.ofFeed (lastFrame (feedBytes s.dec (charT :: body)).2))) := rfl

/-- A step whose request is taken from the head runs that request. -/
theorem step_cons {s : State} {r : Request} {rs : List Request} (h : s.requests = r :: rs) :
    step s = runRequest r (s.withRequests rs) := by
  simp [step, h]

/-- A step with nothing presented is NOP's. -/
theorem step_nil {s : State} (h : s.requests = []) : step s = exec .nop s := by
  simp [step, h]

/-- Everything a step that answers a next state can have done. -/
theorem step_cases {s t : State} (h : step s = .next t) :
    (s.requests = [] ∧ exec .nop s = .next t) ∨
    (∃ r rs, s.requests = r :: rs ∧ r.ports.rst = true ∧ t = (s.withRequests rs).blockReset) ∨
    (∃ r rs i, s.requests = r :: rs ∧ r.ports.rst = false ∧ decode r = .ok i ∧
      exec i (s.withRequests rs) = .next t) := by
  rcases hr : s.requests with _ | ⟨r, rs⟩
  · exact .inl ⟨rfl, by rw [← step_nil hr, h]⟩
  refine .inr ?_
  rw [step_cons hr, runRequest] at h
  split at h
  · rename_i hrst
    cases h
    exact .inl ⟨r, rs, rfl, hrst, rfl⟩
  · rename_i hrst
    split at h
    · rename_i i hi
      exact .inr ⟨r, rs, i, rfl, by simpa using hrst, hi, h⟩
    · cases h

end Sys2Proof.Machine
end

