-- ==== Sys2Proof/Laws/FrameEncoder.lean ====
section
/-! SUPPORT. What ENCODE and the shared operation of the commands can answer, and the length of a rendered sentence. -/

namespace Sys2Proof.Machine

/-- A sentence of a length-`n` frame has `6 + 2n` bytes (rule R67). -/
theorem length_renderSentence (id : Ident) (len : Len) (data : Bus) :
    (renderSentence id len data).length = 6 + 2 * len.toNat := by
  have h : ∀ l : List Byte, (l.flatMap hexByte).length = 2 * l.length := by
    intro l
    induction l with
    | nil => rfl
    | cons b bs ih => simp [hexByte, ih]; omega
  simp [renderSentence, h]
  omega

/-- ENCODE of a length within 8 drives its sentence. -/
theorem execEncode_of_le (id : Ident) (len : Len) (data : Bus) (s : State) (h : len ≤ Config.maxDlc) :
    execEncode id len data s = .next (s.drive (.ofSentence (renderSentence id len data))) := by
  simp only [execEncode, h, if_true]

/-- Every command answers a next state that differs in the outputs only (rules R21 and R204). -/
@[simp] theorem driveCommand_next (node : Ident) (payload : Bus) (s : State) :
    driveCommand node payload s = .next (s.drive (.ofSentence (commandSentence node payload))) := rfl

end Sys2Proof.Machine
end

