-- ==== Sys2Proof/Laws/PerInstr.lean ====
section
/-! SUPPORT. Statements for all instructions, one lemma per constructor. -/

namespace Sys2Proof.Laws

/-- The encoder presents an instruction in its row's encoding space, without the block reset. -/
def EncodeKeepsSpace.Statement (i : Instr) : Prop := (encode i).format = i.format ∧ (encode i).ports.rst = false

theorem EncodeKeepsSpace.nop : EncodeKeepsSpace.Statement .nop := ⟨rfl, rfl⟩
theorem EncodeKeepsSpace.feed (b : Byte) : EncodeKeepsSpace.Statement (.feed b) := ⟨rfl, rfl⟩
theorem EncodeKeepsSpace.encode (id : Ident) (len : Len) (data : Bus) :
    EncodeKeepsSpace.Statement (.encode id len data) := ⟨rfl, rfl⟩
theorem EncodeKeepsSpace.compose (node cls : Ident) : EncodeKeepsSpace.Statement (.compose node cls) := ⟨rfl, rfl⟩
theorem EncodeKeepsSpace.nodeOf (id : Ident) : EncodeKeepsSpace.Statement (.nodeOf id) := ⟨rfl, rfl⟩
theorem EncodeKeepsSpace.classOf (id : Ident) : EncodeKeepsSpace.Statement (.classOf id) := ⟨rfl, rfl⟩
theorem EncodeKeepsSpace.f16to32 (h : BitVec 16) : EncodeKeepsSpace.Statement (.f16to32 h) := ⟨rfl, rfl⟩
theorem EncodeKeepsSpace.telemDecode (id : Ident) (len : Len) (data : Bus) :
    EncodeKeepsSpace.Statement (.telemDecode id len data) := ⟨rfl, rfl⟩
theorem EncodeKeepsSpace.cmdSpeed (node : Ident) (speed : Word32) :
    EncodeKeepsSpace.Statement (.cmdSpeed node speed) := ⟨rfl, rfl⟩
theorem EncodeKeepsSpace.cmdStop (node : Ident) : EncodeKeepsSpace.Statement (.cmdStop node) := ⟨rfl, rfl⟩
theorem EncodeKeepsSpace.cmdReset (node : Ident) : EncodeKeepsSpace.Statement (.cmdReset node) := ⟨rfl, rfl⟩
theorem EncodeKeepsSpace.reservedB : EncodeKeepsSpace.Statement .reservedB := ⟨rfl, rfl⟩
theorem EncodeKeepsSpace.reservedCToF (low : BitVec 2) :
    EncodeKeepsSpace.Statement (.reservedCToF low) := ⟨rfl, rfl⟩
theorem EncodeKeepsSpace.sentenceT (body : List Byte) : EncodeKeepsSpace.Statement (.sentenceT body) := ⟨rfl, rfl⟩
theorem EncodeKeepsSpace.payloadSpeedControl (node : Ident) (speed : Word32) :
    EncodeKeepsSpace.Statement (.payloadSpeedControl node speed) := ⟨rfl, rfl⟩
theorem EncodeKeepsSpace.payloadStop (node : Ident) : EncodeKeepsSpace.Statement (.payloadStop node) := ⟨rfl, rfl⟩
theorem EncodeKeepsSpace.payloadReset (node : Ident) : EncodeKeepsSpace.Statement (.payloadReset node) := ⟨rfl, rfl⟩
theorem EncodeKeepsSpace.classTelemetryPrimary (node : BitVec 7) (len : Len) (data : Bus) :
    EncodeKeepsSpace.Statement (.classTelemetryPrimary node len data) := ⟨rfl, rfl⟩
theorem EncodeKeepsSpace.classCommand (node : BitVec 7) (data : Bus) :
    EncodeKeepsSpace.Statement (.classCommand node data) := ⟨rfl, rfl⟩
theorem EncodeKeepsSpace.classReserved280 (node : BitVec 7) (len : Len) (data : Bus) :
    EncodeKeepsSpace.Statement (.classReserved280 node len data) := ⟨rfl, rfl⟩
theorem EncodeKeepsSpace.classReserved380 (node : BitVec 7) (len : Len) (data : Bus) :
    EncodeKeepsSpace.Statement (.classReserved380 node len data) := ⟨rfl, rfl⟩
theorem EncodeKeepsSpace.classReserved480 (node : BitVec 7) (len : Len) (data : Bus) :
    EncodeKeepsSpace.Statement (.classReserved480 node len data) := ⟨rfl, rfl⟩

end Sys2Proof.Laws
end

