-- ==== Sys2Proof/Laws/Sentence.lean ====
section
/-! SUPPORT. What the grammar of rule R66 says of a text it accepts, and a frame read back from the outputs. -/

namespace Sys2Proof.Machine

/-- A text that spells a payload of `n` bytes: its length, the payload's, and no type character in it. -/
theorem payloadText_shape (n : Nat) (text p : List Byte) (h : payloadText n text = some p) :
    text.length = 2 * n + 1 ∧ p.length = n ∧ charT ∉ text := by
  induction n generalizing text p with
  | zero =>
    match text with
    | [] => simp [payloadText] at h
    | [c] => simp [payloadText] at h; simp [h, charT, charCR]
    | _ :: _ :: _ => simp [payloadText] at h
  | succ n ih =>
    match text with
    | [] => simp [payloadText] at h
    | [c] => simp [payloadText] at h
    | hi :: lo :: rest =>
      simp only [payloadText] at h
      split at h
      · rename_i h1 h2 h3
        obtain ⟨l1, l2, l3⟩ := ih _ _ h3
        cases h
        refine ⟨by simp [l1]; omega, by simp [l2], ?_⟩
        simp [l3, (ne_charT_of_hexVal h1).symm, (ne_charT_of_hexVal h2).symm]
      · cases h

/-- A text that is one sentence: it is `'t'`, then `5 + 2n` bytes none of which is `'t'`, and its frame has the shape of
rule R11 with length `n`. -/
theorem sentenceFrame_shape (text : List Byte) (f : CanFrame) (h : sentenceFrame text = some f) :
    FrameOk f ∧ ∃ body, text = charT :: body ∧ charT ∉ body ∧ body.length = 5 + 2 * f.length.toNat := by
  unfold sentenceFrame at h
  split at h
  · split at h
    · rename_i h1 h2 h3 h4
      split at h
      · split at h
        · rename_i hc _ p hp
          cases h
          obtain ⟨l1, l2, l3⟩ := payloadText_shape _ _ _ hp
          have h8 := hc.2.2
          simp only [Config.maxDlc, BitVec.le_def] at h8
          refine ⟨⟨h8, l2⟩, _, by rw [hc.1], ?_, by simp [l1]; omega⟩
          simp [l3, (ne_charT_of_hexVal h1).symm, (ne_charT_of_hexVal h2).symm, (ne_charT_of_hexVal h3).symm,
            (ne_charT_of_hexVal h4).symm]
        · cases h
      · cases h
    · cases h
  · cases h

/-- The outputs of FEED carry the frame it returned. -/
theorem frame_ofFeed (f : CanFrame) (h : FrameOk f) : (Outputs.ofFeed (some f)).frame = some f := by
  simp only [Outputs.ofFeed, Outputs.frame]
  rw [← h.2, payloadBytes_packBytes _ (by have := h.1; omega)]

end Sys2Proof.Machine
end

