-- ==== Sys2Proof/Laws/Stream.lean ====
section
/-! SUPPORT. Feeding many bytes: what an idle decoder makes of bytes without a type character, and what a decoder makes of
the payload part of a sentence. -/

namespace Sys2Proof.Machine

/-- An idle decoder ignores bytes without a type character (rule R104). -/
theorem feedBytes_idle (d : Decoder) (bs : List Byte) (h : d.st = .idle) (ht : charT ∉ bs) :
    feedBytes d bs = (d, List.replicate bs.length none) := by
  induction bs with
  | nil => rfl
  | cons b bs ih =>
    have hb : b ≠ charT := fun hh => ht (by simp [hh])
    have e : feedByte d b = (d, none) := by simp [feedByte, hb, h]
    simp only [feedBytes_cons, e, ih (fun hh => ht (by simp [hh])), List.length_cons, List.replicate_succ]

@[simp] theorem lastFrame_nil : lastFrame [] = none := rfl

/-- A FEED that returns nothing leaves what the last FEED returns to the bytes after it. -/
theorem lastFrame_feed_cons (d : Decoder) (b : Byte) (bs : List Byte) (h : (feedByte d b).2 = none) :
    lastFrame (feedBytes d (b :: bs)).2 = lastFrame (feedBytes (feedByte d b).1 bs).2 := by
  cases bs with
  | nil => simp [feedBytes_cons, lastFrame, h]
  | cons c cs => simp [feedBytes_cons, lastFrame]

/-- What the last FEED returns depends on the decoder the earlier bytes leave. -/
theorem lastFrame_feed_append (d : Decoder) (xs : List Byte) (y : Byte) (ys : List Byte) :
    lastFrame (feedBytes d (xs ++ y :: ys)).2 = lastFrame (feedBytes (feedBytes d xs).1 (y :: ys)).2 := by
  simp only [lastFrame, feedBytes_append, feedBytes_cons, List.getLast?_append, List.getLast?_cons, Option.or]

/-- An idle decoder returns nothing for bytes without a type character. -/
theorem lastFrame_idle (d : Decoder) (bs : List Byte) (h : d.st = .idle) (ht : charT ∉ bs) :
    lastFrame (feedBytes d bs).2 = none := by
  rw [feedBytes_idle d bs h ht]
  cases bs <;> simp [lastFrame, List.getLast?_replicate]

/-- The first `k + 1` cells after cell `k` is written. -/
theorem take_setIfInBounds (buf : Vector Byte 8) (k : Nat) (x : Byte) (hk : k < 8) :
    (buf.setIfInBounds k x).toList.take (k + 1) = buf.toList.take k ++ [x] := by
  apply List.ext_getElem
  · simp; omega
  · intro i h1 h2
    simp at h1
    simp only [List.getElem_take, Vector.getElem_toList, Vector.getElem_setIfInBounds]
    by_cases hi : k = i
    · subst hi; simp [List.getElem_append_right]
    · rw [List.getElem_append_left (by simp; omega)]
      simp [hi]

/-- The cells below `k` are as they were after cell `k` is written. -/
theorem take_setIfInBounds_below (buf : Vector Byte 8) (k : Nat) (x : Byte) :
    (buf.setIfInBounds k x).toList.take k = buf.toList.take k := by
  apply List.ext_getElem
  · simp
  · intro i h1 h2
    simp at h1
    simp [show ¬ k = i by omega]

/-- A high and a low nibble make a byte (rules R72 and R108). -/
theorem nibbles_join (h l : Nibble) : h.setWidth 8 * 16 + l.setWidth 8 = h ++ l := by
  apply BitVec.eq_of_toNat_eq
  rw [BitVec.toNat_append, ← Nat.shiftLeft_add_eq_or_of_lt l.isLt]
  have := h.isLt
  have := l.isLt
  simp [Nat.shiftLeft_eq]
  omega

/-- A digit where a payload digit is expected (rule R108). -/
theorem feedByte_payloadDigit (d : Decoder) (b : Byte) (v : Nibble) (hs : d.st = .readingData)
    (hv : hexVal b = some v) (hn : d.nibCnt.toNat < 2 * d.dlc.toNat) : feedByte d b = (d.acceptNibble v, none) := by
  simp only [feedByte, ne_charT_of_hexVal hv, hs, hv, feedReadingData, hn, if_true, if_false]

/-- A byte that ends a sentence in its payload as malformed (rule R110). -/
theorem feedByte_payloadMalformed (d : Decoder) (b : Byte) (hs : d.st = .readingData) (hb : b ≠ charT)
    (hv : ∀ v, hexVal b = some v → 2 * d.dlc.toNat ≤ d.nibCnt.toNat)
    (hc : b = charCR → d.nibCnt.toNat ≠ 2 * d.dlc.toNat) : feedByte d b = (d.recover, none) := by
  rcases feedByte_cases d b with c | c | c | ⟨v, -, c⟩ | ⟨v, -, c⟩ | ⟨v, hx, c⟩ | c
  · exact absurd c.1 hb
  · simp [hs] at c
  · exact c.2.2
  · simp [hs] at c
  · simp [hs] at c
  · have := hv v hx; omega
  · exact absurd c.2.2.1 (hc c.1)

/-- Two payload digits fill the next cell and leave the cells before it (rules R26 and R108). -/
theorem acceptNibble_pair_buf (d : Decoder) (k : Nat) (v w : Nibble) (hk : k < 8) (hn : d.nibCnt.toNat = 2 * k) :
    ((d.acceptNibble v).acceptNibble w).buf.toList.take (k + 1) = d.buf.toList.take k ++ [v ++ w] := by
  have n1 : (d.acceptNibble v).nibCnt.toNat = 2 * k + 1 := by simp; omega
  have h0 : d.nibCnt.toNat / 2 = k := by omega
  have h1 : (d.acceptNibble v).nibCnt.toNat / 2 = k := by omega
  have he : d.nibCnt.toNat % 2 = 0 := by omega
  rw [Decoder.acceptNibble_buf, h1, take_setIfInBounds _ _ _ hk, Decoder.acceptNibble_buf, h0,
    take_setIfInBounds_below]
  congr 2
  simp only [nibbleInto, n1, show ¬ (2 * k + 1) % 2 = 0 by omega, if_false]
  simp [he, Vector.getD, hk]
  exact nibbles_join v w

/-- From `ReadingData` with whole cells received, bytes without a type character give, on the last of them, what the
grammar reads there (rules R108, R109 and R110 against rule R72). -/
theorem lastFrame_readingData (m : Nat) (d : Decoder) (k : Nat) (bs : List Byte) (hs : d.st = .readingData)
    (h8 : d.dlc.toNat ≤ 8) (hk : d.dlc.toNat = k + m) (hn : d.nibCnt.toNat = 2 * k) (ht : charT ∉ bs) :
    lastFrame (feedBytes d bs).2 =
      (payloadText m bs).map (fun p => ⟨d.idAcc, d.dlc, d.buf.toList.take k ++ p⟩) := by
  induction m generalizing d k bs with
  | zero =>
    match bs with
    | [] => rfl
    | b :: bs =>
      have hb : b ≠ charT := fun hh => ht (by simp [hh])
      have hbs : charT ∉ bs := fun hh => ht (by simp [hh])
      by_cases hc : b = charCR
      · subst hc
        have e : feedByte d charCR = (d.recover, some d.frame) := by
          simp only [feedByte, hs, hb, if_false, hexVal_charCR, feedReadingData]
          rw [if_pos ⟨trivial, by omega⟩]
        cases bs with
        | nil => simp [feedBytes_cons, e, lastFrame, payloadText, Decoder.frame, hk]
        | cons c cs =>
          have := lastFrame_idle d.recover (c :: cs) rfl hbs
          simp only [lastFrame, feedBytes_cons, e, List.getLast?_cons, Option.getD_some] at this ⊢
          simpa [payloadText] using this
      · have e := feedByte_payloadMalformed d b hs hb (by intros; omega) (fun h => absurd h hc)
        rw [lastFrame_feed_cons _ _ _ (by rw [e]), e, lastFrame_idle _ _ rfl hbs]
        cases bs <;> simp [payloadText, hc]
  | succ m ih =>
    match bs with
    | [] => rfl
    | b :: bs =>
      have hb : b ≠ charT := fun hh => ht (by simp [hh])
      have hbs : charT ∉ bs := fun hh => ht (by simp [hh])
      rcases hv : hexVal b with _ | v
      · have e := feedByte_payloadMalformed d b hs hb (by simp [hv]) (by intros; omega)
        rw [lastFrame_feed_cons _ _ _ (by rw [e]), e, lastFrame_idle _ _ rfl hbs]
        cases bs <;> simp [payloadText, hv]
      have e := feedByte_payloadDigit d b v hs hv (by omega)
      rw [lastFrame_feed_cons _ _ _ (by rw [e]), e]
      match bs with
      | [] => rfl
      | c :: cs =>
        have hc : c ≠ charT := fun hh => hbs (by simp [hh])
        have hcs : charT ∉ cs := fun hh => hbs (by simp [hh])
        have n1 : (d.acceptNibble v).nibCnt.toNat = 2 * k + 1 := by simp; omega
        rcases hw : hexVal c with _ | w
        · have e := feedByte_payloadMalformed (d.acceptNibble v) c (by simp [hs]) hc (by simp [hw])
            (by intros; simp at *; omega)
          rw [lastFrame_feed_cons _ _ _ (by rw [e]), e, lastFrame_idle _ _ rfl hcs]
          simp [payloadText, hv, hw]
        · have e := feedByte_payloadDigit (d.acceptNibble v) c w (by simp [hs]) hw (by rw [n1]; simp; omega)
          rw [lastFrame_feed_cons _ _ _ (by rw [e]), e]
          have n2 : ((d.acceptNibble v).acceptNibble w).nibCnt.toNat = 2 * (k + 1) := by
            rw [Decoder.acceptNibble_nibCnt, BitVec.toNat_add, n1]; simp; omega
          rw [ih ((d.acceptNibble v).acceptNibble w) (k + 1) cs (by simp [hs]) (by simpa) (by simp; omega) n2 hcs,
            acceptNibble_pair_buf d k v w (by omega) hn]
          rcases hp : payloadText m cs with _ | p <;> simp [payloadText, hv, hw, hp]

end Sys2Proof.Machine
end

