-- ==== Sys2Proof/Machine/Assembler.lean ====
section
/-! DEFINITION. The operation syntax of rule R77, with the pseudo-operations of rule R78 written as their expansion:
the lines that name an instruction. Numbers are written in hexadecimal but for a length, which is decimal (rule R7). -/

namespace Sys2Proof.Machine

/-- A number of `n` hexadecimal digits, without its `0x`. -/
def hexDigits (n v : Nat) : String :=
  String.ofList ((List.range n).reverse.map (fun i => Char.ofNat (hexCharIn .lower (BitVec.ofNat 4 (v / 16 ^ i))).toNat))

/-- A number of `n` hexadecimal digits (rule R7). -/
def hexNumber (n v : Nat) : String := "0x" ++ hexDigits n v

/-- The bytes of a payload as rule R77 writes them, separated by dots. -/
def dataText (n : Nat) (data : Bus) : String :=
  ".".intercalate ((payloadBytes data n).map (fun b => hexDigits 2 b.toNat))

/-- A line with an identifier, a length and a payload. DESIGN CHOICE, safe (notation only; assumption 21): with length 0 the
operand is written `data=` with no bytes after it, as rule R77's template reads, where vector V27 leaves the operand out; and no
more than eight bytes are written. -/
def frameLine (mnemonic : String) (id : Ident) (len : Len) (data : Bus) : String :=
  mnemonic ++ " id=" ++ hexNumber 3 id.toNat ++ ", len=" ++ len.toNat.repr ++ ", data="
    ++ dataText (min len.toNat 8) data

/-- A line of TELEM_DECODE, which names all eight bytes (rule R77). -/
def telemLine (id : Ident) (len : Len) (data : Bus) : String :=
  "TELEM_DECODE id=" ++ hexNumber 3 id.toNat ++ ", len=" ++ len.toNat.repr ++ ", data=" ++ dataText 8 data

/-- A line of FEED, its byte always as a number, though rule R77 lets it stand as a character too (assumption 21). -/
def feedLine (b : Byte) : String := "FEED " ++ hexNumber 2 b.toNat

/-- A line of a command operation that takes a node. -/
def nodeLine (mnemonic : String) (node : Ident) : String := mnemonic ++ " node=" ++ hexNumber 3 node.toNat

/-- A line of CMD_SPEED. -/
def speedLine (node : Ident) (speed : Word32) : String :=
  nodeLine "CMD_SPEED" node ++ ", speed=" ++ hexNumber 8 speed.toNat

/-- The lines that name an instruction (rules R77 and R78). DESIGN CHOICE, safe (notation only; assumption 21): a row that is
no operation of rule R64 is written as the operations that do what it does; and a reserved code, for which rule R77 gives no
line, as the table's word `RESERVED` with its code, where vector V78 writes `op = 0xB`. -/
def assembly : Instr → List String
  | .nop => ["NOP"]
  | .feed b => [feedLine b]
  | .encode id len data => [frameLine "ENCODE" id len data]
  | .compose node cls => [nodeLine "COMPOSE" node ++ ", cls=" ++ hexNumber 3 cls.toNat]
  | .nodeOf id => ["NODE_OF id=" ++ hexNumber 3 id.toNat]
  | .classOf id => ["CLASS_OF id=" ++ hexNumber 3 id.toNat]
  | .f16to32 h => ["F16TO32 h=" ++ hexNumber 4 h.toNat]
  | .telemDecode id len data => [telemLine id len data]
  | .cmdSpeed node speed => [speedLine node speed]
  | .cmdStop node => [nodeLine "CMD_STOP" node]
  | .cmdReset node => [nodeLine "CMD_RESET" node]
  | .reservedB => ["RESERVED 0xb"]
  | .reservedCToF low => ["RESERVED " ++ hexNumber 1 (12 + low.toNat)]
  | .sentenceT body => (charT :: body).map feedLine
  | .payloadSpeedControl node speed => [speedLine node speed]
  | .payloadStop node => [nodeLine "CMD_STOP" node]
  | .payloadReset node => [nodeLine "CMD_RESET" node]
  | .classTelemetryPrimary node len data => [telemLine (identOf Config.classTelemetry node) len data]
  | .classCommand node data => [frameLine "ENCODE" (identOf Config.classCommand node) Config.maxDlc data]
  | .classReserved280 node len data => [telemLine (identOf Config.classReserved280 node) len data]
  | .classReserved380 node len data => [telemLine (identOf Config.classReserved380 node) len data]
  | .classReserved480 node len data => [telemLine (identOf Config.classReserved480 node) len data]

end Sys2Proof.Machine
end

