-- ==== Sys2Proof/Tests/Slice0.lean ====
section
/-! SUPPORT. Tests of this package: every well-formedness check refuses an ill-formed term; every row's word, written out
from the spec's encoding of it, decodes to its instruction; the spec's vectors (95_test_vectors.md, named V<n> as there),
one step each; and, for every statement with hypotheses, a state and operands that meet all of them together. -/

namespace Sys2Proof.Tests

open Sys2Proof.Machine

/-- The state a step answers, the reset state where it stops. -/
def stateAfter (r : Host.Outcome State Fault Refusal) : State :=
  match r with
  | .next t => t
  | .fault _ => State.reset
  | .refused _ => State.reset

/-- The reset state with the decoder's fields given. -/
def inState (st : SentenceState) (idCnt : BitVec 2) (idAcc : Ident) (dlc : Len) (nibCnt : BitVec 5) (b0 b1 : Byte) :
    State :=
  { State.reset with dec := { st, idCnt, idAcc, dlc, nibCnt, buf := #v[b0, b1, 0, 0, 0, 0, 0, 0] } }

/-- The state of vector V82: in the payload of `"t1232a"`. -/
def inV82 : State := inState .readingData 0 0x123 2 1 0xA0 0

/-- The state of vector V84: all of the payload of `"t1232abcd"`, the terminator to come. -/
def inV84 : State := inState .readingData 0 0x123 2 4 0xAB 0xCD

/-- An operation request. -/
def opWord (p : Ports) : Request := { format := .op, ports := p }

/-! ### Well-formedness: each check refuses an ill-formed term -/

theorem test_wellFormed_refuses_length_nine : (Instr.encode 0x123 9 0).wellFormed = false := by decide
theorem test_wellFormed_refuses_short_sentence : (Instr.sentenceT [0x31, 0x32, 0x33, 0x31, 0x32, 0x0D]).wellFormed = false := by decide
theorem test_wellFormed_refuses_high_identifier : (Instr.sentenceT [0x38, 0x30, 0x30, 0x30, 0x0D]).wellFormed = false := by decide
theorem test_wellFormed_refuses_long_length_digit : (Instr.sentenceT [0x31, 0x32, 0x33, 0x39, 0x0D]).wellFormed = false := by decide
theorem test_wellFormed_refuses_unknown_command : (Instr.classCommand 5 0x02).wellFormed = false := by decide
theorem test_wellFormed_refuses_nonzero_fill : (Instr.classCommand 5 0x0104).wellFormed = false := by decide
theorem test_wellFormed_accepts_mixed_case : (Instr.sentenceT [0x37, 0x66, 0x46, 0x31, 0x61, 0x42, 0x0D]).wellFormed = true := by decide

/-! ### Decoding: a word of every row, from the spec's encoding -/

theorem test_decode_nop : decode (opWord { op := 0b0000 }) = .ok .nop := by decide
theorem test_decode_feed : decode (opWord { op := 0b0001, inByte := 0x0D }) = .ok (.feed 0x0D) := by decide
theorem test_decode_encode :
    decode (opWord { op := 0b0010, idIn := 0x205, lenIn := 8, dataIn := 0x42C8000000000020 }) =
      .ok (.encode 0x205 8 0x42C8000000000020) := by decide
theorem test_decode_compose :
    decode (opWord { op := 0b0011, nodeIn := 5, clsIn := 0x200 }) = .ok (.compose 5 0x200) := by decide
theorem test_decode_nodeOf : decode (opWord { op := 0b0100, idIn := 0x181 }) = .ok (.nodeOf 0x181) := by decide
theorem test_decode_classOf : decode (opWord { op := 0b0101, idIn := 0x181 }) = .ok (.classOf 0x181) := by decide
theorem test_decode_f16to32 : decode (opWord { op := 0b0110, hIn := 0x3C00 }) = .ok (.f16to32 0x3C00) := by decide
theorem test_decode_telemDecode :
    decode (opWord { op := 0b0111, idIn := 0x181, lenIn := 7, dataIn := 1 }) = .ok (.telemDecode 0x181 7 1) := by
  decide
theorem test_decode_cmdSpeed :
    decode (opWord { op := 0b1000, nodeIn := 5, speedIn := 0x42C80000 }) = .ok (.cmdSpeed 5 0x42C80000) := by decide
theorem test_decode_cmdStop : decode (opWord { op := 0b1001, nodeIn := 5 }) = .ok (.cmdStop 5) := by decide
theorem test_decode_cmdReset : decode (opWord { op := 0b1010, nodeIn := 1 }) = .ok (.cmdReset 1) := by decide
theorem test_decode_reservedB : decode (opWord { op := 0b1011 }) = .ok .reservedB := by decide
theorem test_decode_reservedC : decode (opWord { op := 0b1100 }) = .ok (.reservedCToF 0) := by decide
theorem test_decode_reservedF : decode (opWord { op := 0b1111 }) = .ok (.reservedCToF 3) := by decide
theorem test_decode_sentence :
    decode { format := .slcanSentence, text := [0x74, 0x31, 0x32, 0x33, 0x30, 0x0D] } = .ok (.sentenceT [0x31, 0x32, 0x33, 0x30, 0x0D]) := by decide
theorem test_decode_speedControl :
    decode { format := .commandPayload, ports := { nodeIn := 5, dataIn := 0x42C8000000000020 } } =
      .ok (.payloadSpeedControl 5 0x42C80000) := by decide
theorem test_decode_stop :
    decode { format := .commandPayload, ports := { nodeIn := 5, dataIn := 0x04 } } = .ok (.payloadStop 5) := by decide
theorem test_decode_reset :
    decode { format := .commandPayload, ports := { nodeIn := 1, dataIn := 0x01 } } = .ok (.payloadReset 1) := by decide
theorem test_decode_telemetryPrimary :
    decode { format := .identifierClass, ports := { idIn := 0b00110000001, lenIn := 8, dataIn := 2 } } =
      .ok (.classTelemetryPrimary 1 8 2) := by decide
theorem test_decode_command :
    decode { format := .identifierClass, ports := { idIn := 0b01000000101, dataIn := 4 } } = .ok (.classCommand 5 4) := by
  decide
theorem test_decode_reserved280 :
    decode { format := .identifierClass, ports := { idIn := 0b01011111111, lenIn := 3 } } =
      .ok (.classReserved280 0x7F 3 0) := by decide
theorem test_decode_reserved380 :
    decode { format := .identifierClass, ports := { idIn := 0b01110000101 } } = .ok (.classReserved380 5 0 0) := by decide
theorem test_decode_reserved480 :
    decode { format := .identifierClass, ports := { idIn := 0b10010000000 } } = .ok (.classReserved480 0 0 0) := by decide
theorem test_decode_unnamed_class :
    decode { format := .identifierClass, ports := { idIn := 0x07F, lenIn := 8 } } = .ok (.telemDecode 0x07F 8 0) := by
  decide

/-! ### Decoding: each rejection -/

theorem test_decode_rejects_other_type :
    decode { format := .slcanSentence, text := [0x54, 0x30, 0x30, 0x30, 0x30, 0x0D] } = .error .notASentence := by decide
theorem test_decode_rejects_two_sentences :
    decode { format := .slcanSentence, text := [0x74, 0x31, 0x32, 0x33, 0x30, 0x0D] ++ [0x74, 0x31, 0x32, 0x33, 0x30, 0x0D] } =
      .error .bytesAfterTerminator := by decide
theorem test_decode_rejects_unknown_code :
    decode { format := .commandPayload, ports := { dataIn := 0x02 } } = .error .unknownCommandCode := by decide
theorem test_decode_rejects_fill :
    decode { format := .commandPayload, ports := { dataIn := 0x0104 } } = .error .nonZeroFill := by decide

/-! ### The words of the opcode table -/

theorem test_table_feed : decodeTableWord 8 0x1 = some (.feed 0) := by decide
theorem test_table_sentence : decodeTableWord 8 0x74 = some (.sentenceT []) := by decide
theorem test_table_speedControl : decodeTableWord 64 0x20 = some (.payloadSpeedControl 0 0) := by decide
theorem test_table_stop : decodeTableWord 64 0x04 = some (.payloadStop 0) := by decide
theorem test_table_command : decodeTableWord 16 0x200 = some (.classCommand 0 0) := by decide
theorem test_fetch_word_runs :
    step (State.reset.withFetchWord 8 0x74) = exec (.sentenceT []) State.reset := by rfl

/-! ### FEED -/

/-- V82, its last byte. -/
theorem test_feed_V82 : (stateAfter (exec (.feed 0x61) (inState .readingData 0 0x123 2 0 0 0))).dec = inV82.dec := by decide
/-- V83: the low nibble is added to the cell. -/
theorem test_feed_V83 :
    (stateAfter (exec (.feed 0x62) inV82)).dec = (inState .readingData 0 0x123 2 2 0xAB 0).dec := by decide
/-- V85: `'t'` after a whole payload restarts. -/
theorem test_feed_V85 :
    (stateAfter (exec (.feed 0x74) inV84)).dec = (inState .readingId 0 0 2 4 0xAB 0xCD).dec := by decide
/-- The terminator after V84's bytes emits the frame (rule R109). -/
theorem test_feed_terminator :
    (stateAfter (exec (.feed 0x0D) inV84)).out.frame =
      some { identifier := 0x123, length := 2, payload := [0xAB, 0xCD] } := by decide
/-- V16: a terminator after an odd digit count emits nothing. -/
theorem test_feed_V16 : (stateAfter (exec (.feed 0x0D) inV82)).out.frame = none := by decide
/-- V14: a first identifier digit 8 is malformed. -/
theorem test_feed_V14 : (stateAfter (exec (.feed 0x38) (inState .readingId 0 0 0 0 0 0))).dec.st = .idle := by decide
/-- V81: the third identifier digit. -/
theorem test_feed_V81 :
    (stateAfter (exec (.feed 0x33) (inState .readingId 2 0x012 0 0 0 0))).dec =
      (inState .readingLength 0 0x123 0 0 0 0).dec := by decide

/-! ### The sentence row -/

/-- V12: mixed case. -/
theorem test_sentence_V12 :
    (stateAfter (exec (.sentenceT [0x37, 0x66, 0x46, 0x31, 0x61, 0x42, 0x0D]) inV82)).out.frame =
      some { identifier := 0x7FF, length := 1, payload := [0xAB] } := by decide
/-- V17: one digit too many. -/
theorem test_sentence_V17 :
    (stateAfter (exec (.sentenceT [0x31, 0x32, 0x33, 0x31, 0x31, 0x32, 0x33, 0x0D]) inV82)).out.frame = none := by decide

/-! ### ENCODE and the commands -/

/-- V1, the source's own example. -/
theorem test_encode_V1 :
    (stateAfter (exec (.encode 0x205 8 0x42C8000000000020) State.reset)).out.sent =
      some 0xD323438633030303030303030303030323835303274 := by decide
/-- V29a. -/
theorem test_encode_V29a :
    (stateAfter (exec (.encode 0x181 3 0x0C0B0A) State.reset)).out.sent = some 0xD6330623061303331383174 := by decide
/-- V71. -/
theorem test_cmdSpeed_V71 :
    (stateAfter (exec (.cmdSpeed 0x7F 0xBFC00000) State.reset)).out.sent = some 0xD666230633030303030303030303030323866373274 := by decide
/-- V75: an unvalidated node corrupts the class. -/
theorem test_cmdStop_V75 :
    (stateAfter (exec (.cmdStop 0x80) State.reset)).out.sent = some 0xD303030303030303030303030303034303830383274 := by decide
/-- V74. -/
theorem test_cmdReset_V74 :
    (stateAfter (exec (.cmdReset 1) State.reset)).out.sent = some 0xD303030303030303030303030303031303831303274 := by decide
/-- V79: the decoder is as it was. -/
theorem test_cmdReset_V79 : (stateAfter (exec (.cmdReset 1) inV82)).dec = inV82.dec := by decide
/-- V3 by its payload. -/
theorem test_payloadStop_V3 :
    (stateAfter (exec (.payloadStop 5) State.reset)).out.sent = some 0xD303030303030303030303030303034303835303274 := by decide
/-- V70 by its payload. -/
theorem test_payloadSpeedControl_V70 :
    (stateAfter (exec (.payloadSpeedControl 5 0x42C80000) State.reset)).out.sent =
      some 0xD323438633030303030303030303030323835303274 := by decide
/-- V76 by its payload. -/
theorem test_payloadReset_V76 :
    (stateAfter (exec (.payloadReset 0x7F) State.reset)).out.sent = some 0xD303030303030303030303030303031303866373274 := by decide
/-- V3 by its identifier. -/
theorem test_classCommand_V3 :
    (stateAfter (exec (.classCommand 5 0x04) State.reset)).out.sent = some 0xD303030303030303030303030303034303835303274 := by decide

/-! ### AddressCodec and F16TO32 -/

/-- V54: the sum is reduced. -/
theorem test_compose_V54 : (stateAfter (exec (.compose 0x7FF 0x780) State.reset)).out.idOut = some 0x77F := by decide
/-- V53: the class is corrupted. -/
theorem test_compose_V53 : (stateAfter (exec (.compose 0x80 0x180) State.reset)).out.idOut = some 0x200 := by decide
/-- V56. -/
theorem test_nodeOf_V56 : (stateAfter (exec (.nodeOf 0x7FF) State.reset)).out.nodeOut = some 0x7F := by decide
/-- V57. -/
theorem test_classOf_V57 : (stateAfter (exec (.classOf 0x4FF) State.reset)).out.clsOut = some 0x480 := by decide
/-- V40: the largest subnormal. -/
theorem test_f16to32_V40 : (stateAfter (exec (.f16to32 0x03FF) State.reset)).out.fOut = some 0x387FC000 := by decide
/-- V47: a signaling NaN stays one. -/
theorem test_f16to32_V47 : (stateAfter (exec (.f16to32 0x7C01) State.reset)).out.fOut = some 0x7F802000 := by decide
/-- V47, at the other value of `F16_SNAN_QUIET`. -/
theorem test_f16_quieting_V47 : f16To32With true 0x7C01 = 0x7FC02000 := by decide

/-! ### Telemetry, NOP and the reserved codes -/

/-- V63: the NaN payloads are kept. -/
theorem test_telemDecode_V63 :
    (stateAfter (exec (.telemDecode 0x181 8 0xFFC000017C010000) State.reset)).out =
      { telValid := some true, telStatus := some 0, telFault := some 0, telVoltage := some 0x7F802000
        telSpeed := some 0xFFC00001 } := by decide
/-- V69: the class is tested before the length. -/
theorem test_telemDecode_V69 :
    (stateAfter (exec (.telemDecode 0x283 3 0) State.reset)).out.telStatus = some 2 := by decide
/-- V62 by its identifier. -/
theorem test_classTelemetryPrimary_V62 :
    (stateAfter (exec (.classTelemetryPrimary 2 8 0x424800004E000102) State.reset)).out.telVoltage =
      some 0x41C00000 := by decide
/-- V65 by its identifier. -/
theorem test_classReserved280_V65 :
    (stateAfter (exec (.classReserved280 1 8 0) State.reset)).out.telStatus = some 2 := by decide
/-- V66 by its identifier. -/
theorem test_classReserved380_V66 :
    (stateAfter (exec (.classReserved380 5 8 0) State.reset)).out.telStatus = some 2 := by decide
/-- V66 by its identifier. -/
theorem test_classReserved480_V66 :
    (stateAfter (exec (.classReserved480 0x7F 8 0) State.reset)).out.telStatus = some 2 := by decide
/-- V77. -/
theorem test_nop_V77 : (stateAfter (exec .nop inV82)).dec = inV82.dec := by decide
/-- V78. -/
theorem test_reservedB_V78 : (stateAfter (exec .reservedB inV82)).dec = inV82.dec := by decide
theorem test_reservedF_strobe : (stateAfter (exec (.reservedCToF 3) inV82)).out.frmValid = some false := by decide
/-- P4: a reset in the middle of a sentence, with an operation on the ports that is not performed. -/
theorem test_step_P4_reset :
    (stateAfter (step { inV82 with requests := [opWord { op := 1, inByte := 0x62, rst := true }] })).dec =
      Decoder.reset := by decide
/-- The syntax of rule R77. -/
theorem test_assembly_compose : assembly (.compose 5 0x200) = ["COMPOSE node=0x005, cls=0x200"] := by decide

/-! ### The hypotheses of the statements can be met -/

theorem witness_StepRunsDecodedRequest :
    ∃ (s : State) (r : Request) (rs : List Request) (i : Instr),
      s.requests = r :: rs ∧ r.ports.rst = false ∧ decode r = .ok i :=
  ⟨{ inV82 with requests := [opWord { op := 1, inByte := 0x62 }] }, _, _, .feed 0x62, rfl, rfl, rfl⟩
theorem witness_ResetTakesPrecedence :
    ∃ (s : State) (r : Request) (rs : List Request), s.requests = r :: rs ∧ r.ports.rst = true :=
  ⟨{ inV82 with requests := [opWord { rst := true }] }, _, _, rfl, rfl⟩
theorem witness_StepRunsDecodedRequest_nothing : ∃ s : State, s.requests = [] := ⟨inV82, rfl⟩
theorem witness_OnlyMalformedTextOrPayloadIsUndecodable :
    ∃ (s : State) (r : Request) (rs : List Request) (e : DecodeError),
      s.requests = r :: rs ∧ r.ports.rst = false ∧ decode r = .error e :=
  ⟨{ inV82 with requests := [{ format := .slcanSentence, text := [0x54] }] }, _, _, .notASentence, rfl, rfl, rfl⟩
theorem witness_OnlyMalformed_empty_text :
    ([] : List Byte).head? ≠ some 0x74 ∧ decode { format := .slcanSentence, text := [] } = .error .notASentence := by
  decide
theorem witness_OnlyMalformed_bytes_after_terminator :
    [0x74, 0x0D, 0x0D] = (0x74 :: ([] ++ 0x0D :: [0x0D]) : List Byte) ∧
      decode { format := .slcanSentence, text := [0x74, 0x0D, 0x0D] } = .error .bytesAfterTerminator := by decide
theorem witness_OnlyMalformed_unknown_code :
    byteAt (0 : Bus) 0 ∉ [0x20, 0x04, 0x01] ∧ decode { format := .commandPayload } = .error .unknownCommandCode := by decide
theorem witness_OnlyMalformed_fill_speed :
    byteAt (0x01000020 : Bus) 0 = 0x20 ∧ byteAt (0x01000020 : Bus) 3 ≠ 0 ∧
      decode { format := .commandPayload, ports := { dataIn := 0x01000020 } } = .error .nonZeroFill := by decide
theorem witness_OnlyMalformed_fill_stop :
    byteAt (0x8000000000000004 : Bus) 0 = 0x04 ∧ byteAt (0x8000000000000004 : Bus) 7 ≠ 0 ∧
      decode { format := .commandPayload, ports := { dataIn := 0x8000000000000004 } } = .error .nonZeroFill := by decide
/-- Byte 4 is the first of the speed's (rule R75), no fill byte. -/
theorem test_decode_speed_byte_four :
    decode { format := .commandPayload, ports := { dataIn := 0x100000020 } } = .ok (.payloadSpeedControl 0 1) := by decide
theorem witness_DecodeOfEncode_encode : (Instr.encode 0x7FF 8 1).wellFormed = true := by decide
theorem witness_DecodeOfEncode_sentence : (Instr.sentenceT [0x31, 0x32, 0x33, 0x30, 0x0D]).wellFormed = true := by decide
theorem witness_DecodeOfEncode_command : (Instr.classCommand 5 0x42C8000000000020).wellFormed = true := by decide
theorem witness_EncodeOfDecode_text :
    decode { format := .slcanSentence, text := [0x74, 0x0D] } = .ok (.sentenceT [0x0D]) := by decide
theorem witness_EncodeOfDecode_payload :
    decode { format := .commandPayload, ports := { nodeIn := 0x7FF, dataIn := 0x01 } } =
      .ok (.payloadReset 0x7FF) := by decide
theorem witness_EncodeOfDecode_ident :
    decode { format := .identifierClass, ports := { idIn := 0x1FF } } = .ok (.classTelemetryPrimary 0x7F 0 0) := by
  decide
theorem witness_EncodeOfDecode_op : decode (opWord { op := 0xF }) = .ok (.reservedCToF 3) := by decide
theorem witness_EncodeOfDecode_ident_length :
    (0x1FF : Ident).toNat < 0x200 ∧ 0x27F < (0x280 : Ident).toNat ∧
      decode { format := .identifierClass, ports := { idIn := 0x280, lenIn := 15 } } = .ok (.classReserved280 0 15 0) := by
  decide
theorem witness_EncodeOfDecode_ident_command :
    decode { format := .identifierClass, ports := { idIn := 0x27F, lenIn := 3, dataIn := 4 } } = .ok (.classCommand 0x7F 4) := by
  decide
theorem witness_EncodeOfDecode_op_each : ∀ n : Fin 10, ∃ (p : Ports) (i : Instr),
    p.op.toNat = [0x1, 0x2, 0x3, 0x4, 0x5, 0x6, 0x7, 0x8, 0x9, 0xA].getD n.val 0 ∧ decode (opWord p) = .ok i :=
  fun n => ⟨{ op := BitVec.ofNat 4 ([0x1, 0x2, 0x3, 0x4, 0x5, 0x6, 0x7, 0x8, 0x9, 0xA].getD n.val 0) }, _,
    by revert n; decide, rfl⟩
theorem witness_OperationCodes_low : (opWord { op := 0xC }).ports.op = 0xC ∧ (0xC : BitVec 4) ≤ 0xC := by decide
theorem witness_OperationCodes_high : (0xC : BitVec 4) ≤ (opWord { op := 0xF }).ports.op := by decide
theorem witness_OperationCodes_each : ∀ n : Fin 12, ∃ p : Ports, p.op.toNat = n.val :=
  fun n => ⟨{ op := BitVec.ofNat 4 n.val }, by revert n; decide⟩
theorem witness_FeedInIdle : State.reset.dec.st = .idle := rfl
theorem witness_FeedIdentifierDigit_accept :
    (inState .readingId 0 0 0 0 0 0).dec.st = .readingId ∧ (0x37 : Byte) ≠ 0x74 ∧ hexVal 0x37 = some 7 ∧
      ¬ ((inState .readingId 0 0 0 0 0 0).dec.idCnt = 0 ∧ 7 < (7 : Nibble).toNat) := by decide
theorem witness_FeedIdentifierDigit_accept_third :
    (inState .readingId 2 0x012 0 0 0 0).dec.st = .readingId ∧ hexVal 0x66 = some 15 ∧
      ¬ ((inState .readingId 2 0x012 0 0 0 0).dec.idCnt = 0 ∧ 7 < (15 : Nibble).toNat) := by decide
theorem witness_FeedIdentifierDigit_refuse :
    (inState .readingId 0 0 0 0 0 0).dec.st = .readingId ∧ (0x38 : Byte) ≠ 0x74 ∧
      ∀ v : Nibble, hexVal 0x38 = some v → (inState .readingId 0 0 0 0 0 0).dec.idCnt = 0 ∧ 7 < v.toNat := by decide
theorem witness_FeedLengthDigit_accept :
    (inState .readingLength 0 0x123 0 0 0 0).dec.st = .readingLength ∧ (0x38 : Byte) ≠ 0x74 ∧ hexVal 0x38 = some 8 ∧
      (8 : Nibble).toNat ≤ 8 := by decide
theorem witness_FeedLengthDigit_refuse :
    (inState .readingLength 0 0x123 0 0 0 0).dec.st = .readingLength ∧ (0x39 : Byte) ≠ 0x74 ∧
      ∀ v : Nibble, hexVal 0x39 = some v → 8 < v.toNat := by decide
theorem witness_FeedPayloadDigit_high :
    DecoderInv (inState .readingData 0 0x123 8 14 0 0).dec ∧
      (inState .readingData 0 0x123 8 14 0 0).dec.st = .readingData ∧ hexVal 0x61 = some 10 ∧
      (inState .readingData 0 0x123 8 14 0 0).dec.nibCnt.toNat <
        2 * (inState .readingData 0 0x123 8 14 0 0).dec.dlc.toNat := by decide
theorem witness_FeedPayloadDigit_low :
    DecoderInv inV82.dec ∧ inV82.dec.st = .readingData ∧ hexVal 0x62 = some 11 ∧
      inV82.dec.nibCnt.toNat < 2 * inV82.dec.dlc.toNat := by decide
theorem witness_FeedTerminatorEmitsFrame :
    inV84.dec.st = .readingData ∧ inV84.dec.nibCnt.toNat = 2 * inV84.dec.dlc.toNat ∧ DecoderInv inV84.dec := by decide
theorem witness_FeedTerminatorEmitsFrame_empty :
    (inState .readingData 0 0x123 0 0 0 0).dec.nibCnt.toNat = 2 * (inState .readingData 0 0x123 0 0 0 0).dec.dlc.toNat ∧
      DecoderInv (inState .readingData 0 0x123 0 0 0 0).dec := by decide
theorem witness_FeedMalformedPayload_digit :
    inV84.dec.st = .readingData ∧ (0x30 : Byte) ≠ 0x74 ∧
      (hexVal 0x30 ≠ none → 2 * inV84.dec.dlc.toNat ≤ inV84.dec.nibCnt.toNat) ∧
      ((0x30 : Byte) = 0x0D → inV84.dec.nibCnt.toNat ≠ 2 * inV84.dec.dlc.toNat) := by decide
theorem witness_FeedMalformedPayload_terminator :
    inV82.dec.st = .readingData ∧ (0x0D : Byte) ≠ 0x74 ∧
      (hexVal 0x0D ≠ none → 2 * inV82.dec.dlc.toNat ≤ inV82.dec.nibCnt.toNat) ∧
      ((0x0D : Byte) = 0x0D → inV82.dec.nibCnt.toNat ≠ 2 * inV82.dec.dlc.toNat) := by decide
theorem witness_FeedIsTotal : DecoderInv inV84.dec := by decide
theorem witness_RecoveryIsPrecise :
    ∃ t : State, inV82.dec.st ≠ .idle ∧ exec (.feed 0x0D) inV82 = .next t ∧ t.dec.st = .idle :=
  ⟨_, by decide, rfl, by decide⟩
theorem witness_RecoveryIsPrecise_restart : ∃ t : State, exec (.feed 0x74) inV82 = .next t := ⟨_, rfl⟩
theorem witness_SentencePositionAdvancesByOne :
    ∃ t : State, DecoderInv inV82.dec ∧ exec (.feed 0x62) inV82 = .next t := ⟨_, by decide, rfl⟩
/-- The position after the last payload digit is the terminator's. -/
theorem witness_SentencePositionAdvancesByOne_terminator :
    ∃ t : State, DecoderInv (inState .readingData 0 0x123 2 3 0xAB 0xC0).dec ∧
      exec (.feed 0x64) (inState .readingData 0 0x123 2 3 0xAB 0xC0) = .next t ∧ t.dec.st = .readingData ∧
      sentencePosition t.dec = 5 + 2 * t.dec.dlc.toNat := ⟨_, by decide, rfl, by decide, by decide⟩
theorem witness_StepKeepsDecoderInvariant :
    ∃ s t : State, s.requests ≠ [] ∧ DecoderInv s.dec ∧ step s = .next t :=
  ⟨{ inV82 with requests := [opWord { op := 1, inByte := 0x62 }] }, _, by simp, by decide, rfl⟩
theorem witness_EmissionIsTheCurrentSegmentsFrame :
    ∃ (s : State) (bytes : List Byte), s.dec = (feedBytes Decoder.reset bytes).1 ∧ currentSegment bytes ≠ [] :=
  ⟨{ State.reset with dec := (feedBytes Decoder.reset [0x74, 0x31, 0x32, 0x33, 0x30]).1 }, [0x74, 0x31, 0x32, 0x33, 0x30], rfl, by decide⟩
theorem witness_Resynchronisation_sentence :
    sentenceFrame [0x74, 0x31, 0x32, 0x33, 0x30, 0x0D] = some { identifier := 0x123, length := 0, payload := [] } := by decide
theorem witness_Resynchronisation_junk : ∀ n : Nat, sentenceFrame (currentSegment ([0x54, 0x31].take n)) = none
  | 0 => by decide
  | 1 => by decide
  | n + 2 => by
    rw [List.take_of_length_le (by simp)]
    decide
theorem witness_EncodeThenFeedRoundTrip : (8 : Len).toNat ≤ 8 := by decide
theorem witness_StreamingInvariance :
    DecoderInv inV82.dec ∧ ∀ i ∈ [Instr.feed 0x74, .encode 0 8 0, .sentenceT [0x31, 0x32, 0x33, 0x30, 0x0D], .nop],
      i.wellFormed = true := by decide
theorem witness_IdleStatesAreIndistinguishable :
    ∃ s t : State, s ≠ t ∧ s.dec.st = .idle ∧ t.dec.st = .idle ∧ s.requests = t.requests :=
  ⟨State.reset, inState .idle 2 0x7FF 8 16 0xFF 0xFF, by decide, rfl, rfl, rfl⟩
theorem witness_ResetDiscardsSentenceInProgress :
    ∃ (s t : State) (r : Request) (rs : List Request) (bytes : List Byte),
      s.requests = r :: rs ∧ r.ports.rst = true ∧ step s = .next t ∧ charT ∉ bytes ∧ bytes ≠ [] :=
  ⟨{ inV82 with requests := [opWord { rst := true }] }, _, _, _, [0x30, 0x30, 0x33, 0x63, 0x0D], rfl, rfl, rfl, by decide, by decide⟩
theorem witness_WellFormedSentenceCompletes :
    sentenceFrame (0x74 :: [0x31, 0x38, 0x31, 0x32, 0x62, 0x65, 0x65, 0x66, 0x0D]) = some { identifier := 0x181, length := 2, payload := [0xBE, 0xEF] } := by
  decide
theorem witness_EncodeRendersSentence_least : (0 : Len).toNat ≤ 8 := by decide
theorem witness_EncodeRendersSentence_greatest : (8 : Len).toNat ≤ 8 ∧ (7 : Nat) < (8 : Len).toNat := by decide
theorem witness_EncodeRefusesLongLength : 9 ≤ (9 : Len).toNat := by decide
theorem witness_EncodedSentenceIsWellFormed : (8 : Len).toNat ≤ 8 := by decide
theorem witness_ComposeInverseLaws : (0x7F : Ident).toNat ≤ 0x7F ∧ (0x780 : Ident).toNat % 0x80 = 0 := by decide
theorem witness_F16Normal_least :
    1 ≤ ((0x0400 : BitVec 16).extractLsb' 10 5).toNat ∧ ((0x0400 : BitVec 16).extractLsb' 10 5).toNat ≤ 30 := by decide
theorem witness_F16Normal_greatest :
    1 ≤ ((0xFBFF : BitVec 16).extractLsb' 10 5).toNat ∧ ((0xFBFF : BitVec 16).extractLsb' 10 5).toNat ≤ 30 := by decide
theorem witness_F16Subnormal_least :
    (0x8001 : BitVec 16).extractLsb' 10 5 = 0 ∧ 2 ^ 0 ≤ ((0x8001 : BitVec 16).extractLsb' 0 10).toNat ∧
      ((0x8001 : BitVec 16).extractLsb' 0 10).toNat < 2 ^ (0 + 1) := by decide
theorem witness_F16Subnormal_greatest :
    (0x03FF : BitVec 16).extractLsb' 10 5 = 0 ∧ 2 ^ 9 ≤ ((0x03FF : BitVec 16).extractLsb' 0 10).toNat ∧
      ((0x03FF : BitVec 16).extractLsb' 0 10).toNat < 2 ^ (9 + 1) := by decide
theorem witness_F16NaN :
    (0x7C01 : BitVec 16).extractLsb' 10 5 = 31 ∧ (0x7C01 : BitVec 16).extractLsb' 0 10 ≠ 0 := by decide
theorem witness_F16IsExact : (0x7BFF : BitVec 16).extractLsb' 10 5 ≠ 31 := by decide
theorem witness_F16IsInjective : f16To32 0x7C01 = f16To32 0x7C01 := rfl
theorem witness_TelemetryRecordProduced : 0x180 ≤ (0x1FF : Ident).toNat ∧ (0x1FF : Ident).toNat ≤ 0x1FF := by decide
theorem witness_TelemetryWrongLength :
    0x180 ≤ (0x180 : Ident).toNat ∧ (0x180 : Ident).toNat ≤ 0x1FF ∧ (15 : Len) ≠ 8 := by decide
theorem witness_TelemetryReservedClasses :
    (0x280 ≤ (0x280 : Ident).toNat ∧ (0x280 : Ident).toNat ≤ 0x2FF) ∧
      (0x380 ≤ (0x3FF : Ident).toNat ∧ (0x3FF : Ident).toNat ≤ 0x3FF) ∧
      (0x480 ≤ (0x4FF : Ident).toNat ∧ (0x4FF : Ident).toNat ≤ 0x4FF) := by decide
theorem witness_TelemetryOtherClasses :
    (0x7FF : Ident).toNat / 0x80 ∈ [0, 1, 2, 4, 6, 8, 10, 11, 12, 13, 14, 15] ∧
      (0x200 : Ident).toNat / 0x80 ∈ [0, 1, 2, 4, 6, 8, 10, 11, 12, 13, 14, 15] := by decide
theorem witness_OnlyFeedChangesDecoder : ∃ t : State, isPure .nop = true ∧ exec .nop inV82 = .next t := ⟨_, rfl, rfl⟩
theorem witness_PureOutputsDependOnOperandsOnly :
    ∃ t : State, isPure (.encode 5 8 1) = true ∧ exec (.encode 5 8 1) inV82 = .next t := ⟨_, rfl, rfl⟩
theorem witness_FeedCommutesWithPureInstructions :
    ∃ t u : State, isPure (.f16to32 1) = true ∧ exec (.f16to32 1) inV82 = .next t ∧
      exec (.feed 0x62) inV82 = .next u := ⟨_, _, rfl, rfl, rfl⟩

end Sys2Proof.Tests
end

section
/-! PROOFS. The encodings (rules R64, R68, R69): the value of a hexadecimal digit range by range, the encoder's characters,
and the operation each code of `op` chooses. -/

namespace Sys2Proof.Machine

/-! ### Hexadecimal digits (rules R68 and R69) -/

theorem hexVal_of_digit {b : Byte} (hlo : 0x30 ≤ b.toNat) (hhi : b.toNat ≤ 0x39) :
    hexVal b = some (BitVec.ofNat 4 (b.toNat - 0x30)) := by
  have hb : 0x30 ≤ b ∧ b ≤ 0x39 := by bv_omega
  rw [hexVal, if_pos hb]
  congr 1
  bv_omega

theorem hexVal_of_upper {b : Byte} (hlo : 0x41 ≤ b.toNat) (hhi : b.toNat ≤ 0x46) :
    hexVal b = some (BitVec.ofNat 4 (b.toNat - 0x41 + 10)) := by
  have hdigit : ¬ (0x30 ≤ b ∧ b ≤ 0x39) := by bv_omega
  have hb : 0x41 ≤ b ∧ b ≤ 0x46 := by bv_omega
  rw [hexVal, if_neg hdigit, if_pos hb]
  congr 1
  bv_omega

theorem hexVal_of_lower {b : Byte} (hlo : 0x61 ≤ b.toNat) (hhi : b.toNat ≤ 0x66) :
    hexVal b = some (BitVec.ofNat 4 (b.toNat - 0x61 + 10)) := by
  have hdigit : ¬ (0x30 ≤ b ∧ b ≤ 0x39) := by bv_omega
  have hupper : ¬ (0x41 ≤ b ∧ b ≤ 0x46) := by bv_omega
  have hb : 0x61 ≤ b ∧ b ≤ 0x66 := by bv_omega
  rw [hexVal, if_neg hdigit, if_neg hupper, if_pos hb]
  congr 1
  bv_omega

theorem hexVal_eq_none {b : Byte} (hdigit : ¬ (0x30 ≤ b.toNat ∧ b.toNat ≤ 0x39))
    (hupper : ¬ (0x41 ≤ b.toNat ∧ b.toNat ≤ 0x46)) (hlower : ¬ (0x61 ≤ b.toNat ∧ b.toNat ≤ 0x66)) : hexVal b = none := by
  rw [hexVal, if_neg (by bv_omega), if_neg (by bv_omega), if_neg (by bv_omega)]

theorem toNat_hexChar_of_le_nine {v : Nibble} (h : v.toNat ≤ 9) : (hexChar v).toNat = 0x30 + v.toNat := by
  have hv : v ≤ 9 := by bv_omega
  rw [hexChar, hexCharIn, if_pos hv]
  bv_omega

theorem toNat_hexChar_of_nine_lt {v : Nibble} (h : 9 < v.toNat) : (hexChar v).toNat = 0x61 + (v.toNat - 10) := by
  have hv : ¬ v ≤ 9 := by bv_omega
  rw [hexChar, hexCharIn, if_neg hv, Config.encHexCase, hexLetterBase]
  bv_omega

/-- Reading undoes writing: a value up to 9 is written in the digit range, a larger one in the lower-case range. -/
@[simp] theorem hexVal_hexChar (v : Nibble) : hexVal (hexChar v) = some v := by
  have hlt : v.toNat < 16 := v.isLt
  by_cases h : v.toNat ≤ 9
  · have hc := toNat_hexChar_of_le_nine h
    rw [hexVal_of_digit (by omega) (by omega), hc]
    simp
  · have hc := toNat_hexChar_of_nine_lt (Nat.lt_of_not_le h)
    have hv : 0x61 + (v.toNat - 10) - 0x61 + 10 = v.toNat := by omega
    rw [hexVal_of_lower (by omega) (by omega), hc, hv]
    simp

/-! ### The operation codes (rule R64) -/

/-- In the operation space the decoder reads the code: a known code may be put in the place of `op`. -/
theorem decode_op_of_code {p : Ports} {c : BitVec 4} (h : p.op = c) :
    decode { format := .op, ports := p } = .ok (decodeOp { p with op := c }) := by
  rw [← h, decode]

/-- The last arm of the code's match is exactly the codes from 0xC up, which keep their low two bits (rule R65). -/
theorem decodeOp_of_reserved {p : Ports} (h : 0xC ≤ p.op) : decodeOp p = .reservedCToF (p.op.setWidth 2) := by
  have hlow : p.op.extractLsb' 0 2 = p.op.setWidth 2 := BitVec.setWidth_eq_extractLsb' (by omega) |>.symm
  have hcode : 0xC ≤ p.op.toNat := by bv_omega
  rw [← hlow]
  unfold decodeOp
  split
  case h_13 => rfl
  all_goals omega

end Sys2Proof.Machine

namespace Sys2Proof.Proofs
open Sys2Proof.Machine

/-- Settles O33: the byte's range decides `hexVal` (rule R68), the value's side of 9 decides `hexChar` (rule R69). -/
theorem hexDigitsRoundTrip : Obligations.HexDigitsRoundTrip := by
  refine ⟨fun b => ?_, fun v => ?_, hexVal_hexChar⟩
  · split_ifs with hdigit hupper hlower
    · exact hexVal_of_digit hdigit.1 hdigit.2
    · exact hexVal_of_upper hupper.1 hupper.2
    · exact hexVal_of_lower hlower.1 hlower.2
    · exact hexVal_eq_none hdigit hupper hlower
  · split_ifs with hv
    · exact toNat_hexChar_of_le_nine hv
    · exact toNat_hexChar_of_nine_lt (Nat.lt_of_not_le hv)

/-- Settles O9: with the code known, `decodeOp` computes for 0x0 to 0xB; the codes from 0xC up share its last arm. -/
theorem operationCodes : Obligations.OperationCodes := fun _ =>
  ⟨decode_op_of_code, decode_op_of_code, decode_op_of_code, decode_op_of_code, decode_op_of_code, decode_op_of_code,
    decode_op_of_code, decode_op_of_code, decode_op_of_code, decode_op_of_code, decode_op_of_code, decode_op_of_code,
    fun h => congrArg Except.ok (decodeOp_of_reserved h)⟩

end Sys2Proof.Proofs
end

section
/-! PROOFS. The FrameDecoder one byte at a time (rules R100 to R110): what each sentence state makes of a byte it wants and
of one it does not, that rule R27 (a) to (c) survives every byte, and FEED's statements read off these equations. -/

namespace Sys2Proof.Machine

/-! ### One byte (rules R104 to R110) -/

/-- FEED leaves the decoder that one byte leaves and drives the frame it gives; nothing else changes (rules R100, R101). -/
theorem exec_feed_of_feedByte {s : State} {b : Byte} {d : Decoder} {f : Option CanFrame} (h : feedByte s.dec b = (d, f)) :
    exec (.feed b) s = .next { s with dec := d, out := .ofFeed f } := by
  rw [exec_feed, h]
  rfl

@[simp] theorem feedByte_charT (d : Decoder) : feedByte d charT = (d.startSentence, none) := by
  rw [feedByte, if_pos rfl]

theorem feedByte_idle {d : Decoder} {b : Byte} (hs : d.st = .idle) (hb : b ≠ charT) : feedByte d b = (d, none) := by
  simp only [feedByte, hb, hs, if_false]

theorem feedByte_idDigit {d : Decoder} {b : Byte} {v : Nibble} (hs : d.st = .readingId) (hv : hexVal b = some v)
    (hfirst : ¬ (d.idCnt = 0 ∧ 7 < v.toNat)) : feedByte d b = (d.acceptIdDigit v, none) := by
  have hok : ¬ (d.idCnt = 0 ∧ v > 7) := hfirst
  simp only [feedByte, ne_charT_of_hexVal hv, hs, hv, feedReadingId, hok, if_false]

theorem feedByte_idMalformed {d : Decoder} {b : Byte} (hs : d.st = .readingId) (hb : b ≠ charT)
    (hbad : ∀ v, hexVal b = some v → d.idCnt = 0 ∧ 7 < v.toNat) : feedByte d b = (d.recover, none) := by
  simp only [feedByte, hb, hs, if_false]
  rcases hv : hexVal b with _ | v
  · rfl
  · have hx : d.idCnt = 0 ∧ v > 7 := hbad v hv
    rw [feedReadingId, if_pos hx]

theorem feedByte_lengthDigit {d : Decoder} {b : Byte} {v : Nibble} (hs : d.st = .readingLength) (hv : hexVal b = some v)
    (h8 : v.toNat ≤ 8) : feedByte d b = (d.acceptLength v, none) := by
  have hok : ¬ v > Config.maxDlc := Nat.not_lt.mpr h8
  simp only [feedByte, ne_charT_of_hexVal hv, hs, hv, feedReadingLength, hok, if_false]

theorem feedByte_lengthMalformed {d : Decoder} {b : Byte} (hs : d.st = .readingLength) (hb : b ≠ charT)
    (hbad : ∀ v, hexVal b = some v → 8 < v.toNat) : feedByte d b = (d.recover, none) := by
  simp only [feedByte, hb, hs, if_false]
  rcases hv : hexVal b with _ | v
  · rfl
  · have hx : v > Config.maxDlc := hbad v hv
    rw [feedReadingLength, if_pos hx]

theorem feedByte_terminator {d : Decoder} (hs : d.st = .readingData) (hn : d.nibCnt.toNat = 2 * d.dlc.toNat) :
    feedByte d charCR = (d.recover, some d.frame) := by
  simp only [feedByte, charT_ne_charCR.symm, hs, if_false, hexVal_charCR, feedReadingData]
  rw [if_pos ⟨trivial, hn⟩]

/-- A frame is emitted only by the terminator, which leaves the decoder idle (rule R109). -/
theorem feedByte_st_of_emits {d : Decoder} {b : Byte} {f : CanFrame} (h : (feedByte d b).2 = some f) :
    (feedByte d b).1.st = .idle := by
  rcases feedByte_cases d b with ⟨-, e⟩ | ⟨-, -, e⟩ | ⟨-, -, e⟩ | ⟨_, -, -, -, e⟩ | ⟨_, -, -, -, e⟩ | ⟨_, -, -, -, e⟩ |
    ⟨-, -, -, e⟩ <;> rw [e] at h ⊢ <;> cases h
  rfl

/-- Rule R106 as one record: an identifier digit is taken, the third one completes the identifier. -/
theorem acceptIdDigit_of_readingId {d : Decoder} (hs : d.st = .readingId) (v : Nibble) :
    d.acceptIdDigit v = { d with
      st := if d.idCnt = 2 then .readingLength else .readingId
      idCnt := if d.idCnt = 2 then 0 else d.idCnt + 1
      idAcc := d.idAcc * 16 + v.setWidth 11 } := by
  by_cases h : d.idCnt = 2
  · simp [Decoder.acceptIdDigit, h]
  · simp only [Decoder.acceptIdDigit, h, hs, if_false]

/-- Rule R108 in numbers: what a payload digit makes of its cell. -/
theorem nibbleInto_eq_ofNat (old : Byte) (n : BitVec 5) (v : Nibble) :
    nibbleInto old n v =
      if n.toNat % 2 = 0 then BitVec.ofNat 8 (16 * v.toNat) else BitVec.ofNat 8 (old.toNat + v.toNat) := by
  have hv : v.toNat < 16 := v.isLt
  unfold nibbleInto
  split_ifs
  · bv_omega
  · bv_omega

/-- A payload digit goes to cell `nib_cnt div 2` and to no other (rule R108). -/
theorem acceptNibble_buf_getElem (d : Decoder) (v : Nibble) (j : Fin 8) :
    (d.acceptNibble v).buf[j] =
      if j.val = d.nibCnt.toNat / 2 then nibbleInto d.buf[j] d.nibCnt v else d.buf[j] := by
  by_cases hj : j.val = d.nibCnt.toNat / 2
  · simp [← hj, Vector.getD]
  · simp [hj, Ne.symm hj]

/-- The lanes of an emitted payload: the buffer's cells below the length, 0x00 from there on (rules R101 and R109). -/
theorem byteAt_packBytes_frame (d : Decoder) (k : Fin 8) :
    byteAt (packBytes 64 d.frame.payload) k = if k.val < d.dlc.toNat then d.buf[k] else 0 := by
  rw [byteAt_packBytes 64 _ _ (by omega), Decoder.frame, List.getD_eq_getElem?_getD, List.getElem?_take]
  split_ifs <;> simp

/-- An emitted frame has rule R11's shape: the buffer has the eight cells the length may ask for. -/
theorem frameOk_frame {d : Decoder} (h8 : d.dlc.toNat ≤ 8) : FrameOk d.frame :=
  ⟨h8, by simp [Decoder.frame, h8]⟩

/-! ### Rule R27 under one byte -/

/-- Rule R27 (b) asks nothing of an 11-bit register. -/
theorem identInv (d : Decoder) : IdentInv d := fun _ => Nat.le_of_lt_succ d.idAcc.isLt

/-- Rule R27 binds nothing in `Idle` and in `ReadingLength`. -/
theorem decoderInv_of_idle_or_readingLength {d : Decoder} (hs : d.st = .idle ∨ d.st = .readingLength) : DecoderInv d := by
  refine ⟨fun h => ?_, identInv d, fun h => ?_⟩ <;> rcases hs with hs | hs <;> rw [hs] at h <;> cases h

theorem decoderInv_startSentence (d : Decoder) : DecoderInv d.startSentence :=
  ⟨fun _ => by simp, identInv _, fun h => by simp at h⟩

theorem decoderInv_acceptIdDigit {d : Decoder} (hd : DecoderInv d) (hs : d.st = .readingId) {v : Nibble}
    (hfirst : ¬ (d.idCnt = 0 ∧ 7 < v.toNat)) : DecoderInv (d.acceptIdDigit v) := by
  by_cases hlast : d.idCnt = 2
  · exact decoderInv_of_idle_or_readingLength (.inr (by simp [hlast]))
  have hst : (d.acceptIdDigit v).st = .readingId := by rw [Decoder.acceptIdDigit_st, if_neg hlast, hs]
  refine ⟨fun _ => ?_, identInv _, fun h => by rw [hst] at h; cases h⟩
  obtain ⟨hid, -, -⟩ := hd
  obtain ⟨hcnt, hacc, hhead⟩ := hid hs
  have hv : v.toNat < 16 := v.isLt
  have hcases : d.idCnt = 0 ∨ d.idCnt = 1 := by bv_omega
  rcases hcases with h | h
  · simp [h] at hacc hfirst ⊢
    omega
  · simp [h] at hacc hhead ⊢
    omega

theorem decoderInv_acceptLength (d : Decoder) {v : Nibble} (h8 : v.toNat ≤ 8) : DecoderInv (d.acceptLength v) :=
  ⟨fun h => by simp at h, identInv _, fun _ => ⟨h8, by simp⟩⟩

theorem decoderInv_acceptNibble {d : Decoder} (hd : DecoderInv d) (hs : d.st = .readingData) (v : Nibble)
    (hn : d.nibCnt.toNat < 2 * d.dlc.toNat) : DecoderInv (d.acceptNibble v) := by
  obtain ⟨-, -, hdata⟩ := hd
  obtain ⟨h8, -⟩ := hdata hs
  have hcnt : (d.acceptNibble v).nibCnt.toNat = d.nibCnt.toNat + 1 := by
    rw [Decoder.acceptNibble_nibCnt]
    bv_omega
  exact ⟨fun h => by simp [hs] at h, identInv _, fun _ => ⟨h8, by rw [hcnt]; exact hn⟩⟩

/-- Every byte keeps rule R27 (a) to (c), move by move (rules R27 and R102). -/
theorem decoderInv_feedByte {d : Decoder} (hd : DecoderInv d) (b : Byte) : DecoderInv (feedByte d b).1 := by
  rcases feedByte_cases d b with ⟨-, e⟩ | ⟨-, -, e⟩ | ⟨-, -, e⟩ | ⟨v, -, hs, hfirst, e⟩ | ⟨v, -, -, hmax, e⟩ |
    ⟨v, -, hs, hn, e⟩ | ⟨-, -, -, e⟩ <;> rw [e]
  · exact decoderInv_startSentence d
  · exact hd
  · exact decoderInv_of_idle_or_readingLength (.inl rfl)
  · exact decoderInv_acceptIdDigit hd hs hfirst
  · exact decoderInv_acceptLength d (Nat.not_lt.mp hmax)
  · exact decoderInv_acceptNibble hd hs v hn
  · exact decoderInv_of_idle_or_readingLength (.inl rfl)

end Sys2Proof.Machine

namespace Sys2Proof.Proofs
open Sys2Proof.Machine

/-- Settles O10: FEED in `Idle` is the start of a sentence or nothing. -/
theorem feedInIdle : Obligations.FeedInIdle := by
  intro s b hs
  split_ifs with hb
  · rw [hb]
    exact exec_feed_of_feedByte (feedByte_charT s.dec)
  · exact exec_feed_of_feedByte (feedByte_idle hs hb)

/-- Settles O11: `'t'` is tested before the sentence state is. -/
theorem feedRestartsOnTypeCharacter : Obligations.FeedRestartsOnTypeCharacter :=
  fun s => exec_feed_of_feedByte (feedByte_charT s.dec)

/-- Settles O12: the byte is an identifier digit in its place or it is malformed. -/
theorem feedIdentifierDigit : Obligations.FeedIdentifierDigit := by
  refine fun s b hs hb => ⟨fun v hv hfirst => ?_, fun hbad => exec_feed_of_feedByte (feedByte_idMalformed hs hb hbad)⟩
  rw [exec_feed_of_feedByte (feedByte_idDigit hs hv hfirst), acceptIdDigit_of_readingId hs]
  rfl

/-- Settles O13: the byte is a length up to 8 or it is malformed. -/
theorem feedLengthDigit : Obligations.FeedLengthDigit := fun _ _ hs hb =>
  ⟨fun _ hv h8 => exec_feed_of_feedByte (feedByte_lengthDigit hs hv h8),
    fun hbad => exec_feed_of_feedByte (feedByte_lengthMalformed hs hb hbad)⟩

/-- Settles O14: the buffer is the one `acceptNibble` leaves, read cell by cell. -/
theorem feedPayloadDigit : Obligations.FeedPayloadDigit := by
  refine fun s b v _ hs hv hn =>
    ⟨(s.dec.acceptNibble v).buf, exec_feed_of_feedByte (feedByte_payloadDigit s.dec b v hs hv hn), fun j => ?_⟩
  rw [acceptNibble_buf_getElem, nibbleInto_eq_ofNat]

/-- Settles O15: the bus is the emitted payload packed; its lanes are the buffer's cells below the length, 0x00 above. -/
theorem feedTerminatorEmitsFrame : Obligations.FeedTerminatorEmitsFrame := by
  intro s hs hn
  refine ⟨packBytes 64 s.dec.frame.payload, exec_feed_of_feedByte (feedByte_terminator hs hn),
    byteAt_packBytes_frame s.dec, fun ⟨_, _, hdata⟩ => ?_⟩
  obtain ⟨h8, -⟩ := hdata hs
  have hok := frameOk_frame h8
  exact ⟨hok, frame_ofFeed _ hok, rfl⟩

/-- Settles O16: neither a digit still wanted nor the terminator in its place. -/
theorem feedMalformedPayload : Obligations.FeedMalformedPayload := fun s b hs hb hdigit hcr =>
  exec_feed_of_feedByte
    (feedByte_payloadMalformed s.dec b hs hb (fun v hv => hdigit (by simp [hv])) hcr)

/-- Settles O17: FEED has one answer, and its decoder is one byte's. -/
theorem feedIsTotal : Obligations.FeedIsTotal := by
  refine fun s b hd => ⟨_, exec_feed b s, decoderInv_feedByte hd b, rfl, ?_⟩
  rcases (feedByte s.dec b).2 with _ | f
  · exact .inr rfl
  · exact .inl rfl

end Sys2Proof.Proofs
end

section
/-! PROOFS. Streams of bytes (rules R111, R113 and R115): the grammar read from the position a decoder is in, one segment
fed whole, any stream by its current segment, and a rendered frame as a sentence. -/

namespace Sys2Proof.Machine

/-! ### The grammar from a position on (rules R66 and R70)

`payloadText` reads a sentence from its payload on. `lengthText` and `identText` do the same one and two positions of rule
R25 earlier, given the identifier read so far; `sentenceFrame_charT_cons` ties them to the grammar. -/

/-- What a text spells from the length digit on, the identifier known. -/
def lengthText (id : Ident) : List Byte → Option CanFrame
  | [] => none
  | c :: rest => (hexVal c).bind fun n =>
      if n.toNat ≤ 8 then (payloadText n.toNat rest).map (fun p => ⟨id, n, p⟩) else none

/-- What a text spells when `n` identifier digits are still to come and the others have made `acc`. -/
def identText : Nat → Ident → List Byte → Option CanFrame
  | 0, acc, text => lengthText acc text
  | _ + 1, _, [] => none
  | n + 1, acc, c :: rest => (hexVal c).bind fun v =>
      if n = 2 ∧ 7 < v.toNat then none else identText n (acc * 16 + v.setWidth 11) rest

/-- Three digits accumulated one by one are the identifier they spell (rules R70 and R106). -/
theorem accumulate_eq_identOfDigits (d1 d2 d3 : Nibble) :
    ((0 * 16 + d1.setWidth 11) * 16 + d2.setWidth 11) * 16 + d3.setWidth 11 = identOfDigits d1 d2 d3 := by
  unfold identOfDigits
  apply BitVec.eq_of_toNat_eq
  simp
  omega

/-- A sentence is `'t'` and a text read from the first identifier digit on. -/
theorem sentenceFrame_charT_cons (body : List Byte) : sentenceFrame (charT :: body) = identText 3 0 body := by
  match body with
  | [] | [_] | [_, _] | [_, _, _] => simp [sentenceFrame, identText, lengthText]
  | c1 :: c2 :: c3 :: c4 :: rest =>
    rcases h1 : hexVal c1 with _ | d1
    · simp [sentenceFrame, identText, h1]
    rcases h2 : hexVal c2 with _ | d2
    · simp [sentenceFrame, identText, h1, h2]
    rcases h3 : hexVal c3 with _ | d3
    · simp [sentenceFrame, identText, h1, h2, h3]
    rcases h4 : hexVal c4 with _ | n
    · simp [sentenceFrame, identText, lengthText, h1, h2, h3, h4]
    have hmax : n ≤ Config.maxDlc ↔ n.toNat ≤ 8 := Iff.rfl
    have hfirst : d1 ≤ 7#4 ↔ ¬ 7 < d1.toNat := Nat.not_lt.symm
    by_cases hd : 7 < d1.toNat
    · simp [sentenceFrame, identText, h1, h2, h3, h4, hfirst, hd]
    by_cases hn : n.toNat ≤ 8
    · rcases hp : payloadText n.toNat rest with _ | p <;>
        simp [sentenceFrame, identText, lengthText, h1, h2, h3, h4, hfirst, hmax, hd, hn, hp,
          ← accumulate_eq_identOfDigits]
    · simp [sentenceFrame, identText, lengthText, h1, h2, h3, h4, hmax, hn]

/-- A byte that is no length up to 8 spells nothing (rule R107). -/
theorem lengthText_cons_malformed {id : Ident} {b : Byte} {bs : List Byte}
    (hbad : ∀ v, hexVal b = some v → 8 < v.toNat) : lengthText id (b :: bs) = none := by
  rcases hv : hexVal b with _ | v
  · simp [lengthText, hv]
  · simp [lengthText, hv, Nat.not_le.mpr (hbad v hv)]

/-- A byte that is no digit, or a first digit above 7, spells nothing (rule R106). -/
theorem identText_cons_malformed {n : Nat} {acc : Ident} {b : Byte} {bs : List Byte}
    (hbad : ∀ v, hexVal b = some v → n = 2 ∧ 7 < v.toNat) : identText (n + 1) acc (b :: bs) = none := by
  rcases hv : hexVal b with _ | v
  · simp [identText, hv]
  · simp [identText, hv, hbad v hv]

/-! ### One segment: bytes with no type character after the first -/

/-- What a byte before the last one gives is not what the last one gives. -/
theorem lastFrame_feed_cons_cons (d : Decoder) (b c : Byte) (cs : List Byte) :
    lastFrame (feedBytes d (b :: c :: cs)).2 = lastFrame (feedBytes (feedByte d b).1 (c :: cs)).2 :=
  lastFrame_feed_append d [b] c cs

/-- What a byte that discards the sentence leaves to the bytes after it. -/
theorem lastFrame_of_recover {d : Decoder} {b : Byte} {bs : List Byte} (h : feedByte d b = (d.recover, none))
    (ht : charT ∉ bs) : lastFrame (feedBytes d (b :: bs)).2 = none := by
  rw [lastFrame_feed_cons _ _ _ (by rw [h]), h, lastFrame_idle _ _ rfl ht]

/-- From `ReadingLength` the last byte gives what the grammar reads there (rule R107). -/
theorem lastFrame_readingLength {d : Decoder} {bs : List Byte} (hs : d.st = .readingLength) (ht : charT ∉ bs) :
    lastFrame (feedBytes d bs).2 = lengthText d.idAcc bs := by
  cases bs with
  | nil => rfl
  | cons b bs =>
    obtain ⟨hb, hbs⟩ := List.ne_and_not_mem_of_not_mem_cons ht
    by_cases hbad : ∀ v, hexVal b = some v → 8 < v.toNat
    · rw [lastFrame_of_recover (feedByte_lengthMalformed hs hb.symm hbad) hbs, lengthText_cons_malformed hbad]
    · push Not at hbad
      obtain ⟨v, hv, h8⟩ := hbad
      have e := feedByte_lengthDigit hs hv h8
      rw [lastFrame_feed_cons _ _ _ (by rw [e]), e,
        lastFrame_readingData v.toNat (d.acceptLength v) 0 bs rfl h8 (by simp) (by simp) hbs]
      simp [lengthText, hv, h8]

/-- From `ReadingId` with `n + 1` digits to come the last byte gives what the grammar reads there (rule R106). -/
theorem lastFrame_readingId {n : Nat} {d : Decoder} {bs : List Byte} (hs : d.st = .readingId)
    (hn : d.idCnt.toNat + n = 2) (ht : charT ∉ bs) :
    lastFrame (feedBytes d bs).2 = identText (n + 1) d.idAcc bs := by
  induction bs generalizing n d with
  | nil => rfl
  | cons b bs ih =>
    obtain ⟨hb, hbs⟩ := List.ne_and_not_mem_of_not_mem_cons ht
    have hstart : d.idCnt = 0 ↔ n = 2 := by bv_omega
    by_cases hbad : ∀ v, hexVal b = some v → n = 2 ∧ 7 < v.toNat
    · have hmal : ∀ v, hexVal b = some v → d.idCnt = 0 ∧ 7 < v.toNat := by simpa only [hstart] using hbad
      rw [lastFrame_of_recover (feedByte_idMalformed hs hb.symm hmal) hbs, identText_cons_malformed hbad]
    · push Not at hbad
      obtain ⟨v, hv, hfirst⟩ := hbad
      have hok : ¬ (n = 2 ∧ 7 < v.toNat) := fun h => Nat.not_lt.mpr (hfirst h.1) h.2
      have e := feedByte_idDigit hs hv (by rwa [hstart])
      rw [lastFrame_feed_cons _ _ _ (by rw [e]), e]
      have hnext : lastFrame (feedBytes (d.acceptIdDigit v) bs).2 = identText n (d.acceptIdDigit v).idAcc bs := by
        cases n with
        | zero =>
          have hlast : d.idCnt = 2 := by bv_omega
          exact lastFrame_readingLength (by rw [Decoder.acceptIdDigit_st, if_pos hlast]) hbs
        | succ n =>
          have hmore : d.idCnt ≠ 2 := by bv_omega
          refine ih (by rw [Decoder.acceptIdDigit_st, if_neg hmore, hs]) ?_ hbs
          rw [Decoder.acceptIdDigit_idCnt, if_neg hmore]
          bv_omega
      simp [hnext, identText, hv, hok]

/-- A segment fed from any decoder state gives on its last byte the frame of the sentence it is, if it is one. -/
theorem lastFrame_segment (d : Decoder) {body : List Byte} (ht : charT ∉ body) :
    lastFrame (feedBytes d (charT :: body)).2 = sentenceFrame (charT :: body) := by
  rw [lastFrame_feed_cons _ _ _ (by simp), feedByte_charT, sentenceFrame_charT_cons]
  exact lastFrame_readingId (n := 2) rfl rfl ht

/-- Without a type character only the last byte can give a frame: a byte that gives one leaves the decoder idle, and it
then gives none again. -/
theorem feedBytes_of_lastFrame {d : Decoder} {bs : List Byte} {f : CanFrame} (ht : charT ∉ bs)
    (h : lastFrame (feedBytes d bs).2 = some f) :
    (feedBytes d bs).2 = List.replicate (bs.length - 1) none ++ [some f] ∧ (feedBytes d bs).1.st = .idle := by
  induction bs generalizing d with
  | nil => simp at h
  | cons b bs ih =>
    obtain ⟨-, hbs⟩ := List.ne_and_not_mem_of_not_mem_cons ht
    cases bs with
    | nil =>
      have hf : (feedByte d b).2 = some f := by simpa [feedBytes_cons, lastFrame] using h
      simpa [feedBytes_cons, hf] using feedByte_st_of_emits hf
    | cons c cs =>
      rw [lastFrame_feed_cons_cons] at h
      have hnone : (feedByte d b).2 = none := by
        refine Option.eq_none_iff_forall_ne_some.mpr fun g hg => ?_
        have hlast := lastFrame_idle _ (c :: cs) (feedByte_st_of_emits hg) hbs
        exact absurd (h.symm.trans hlast) (by simp)
      obtain ⟨hframes, hidle⟩ := ih hbs h
      rw [feedBytes_cons, hnone, hframes]
      exact ⟨rfl, hidle⟩

/-- A well-formed sentence, fed from any decoder state, gives its frame on its last byte and nothing before (rule R113). -/
theorem feedBytes_sentence (d : Decoder) {sentence : List Byte} {f : CanFrame} (h : sentenceFrame sentence = some f) :
    (feedBytes d sentence).2 = List.replicate (sentence.length - 1) none ++ [some f] ∧
      (feedBytes d sentence).1.st = .idle := by
  obtain ⟨-, body, rfl, ht, hlen⟩ := sentenceFrame_shape _ _ h
  have hlast : lastFrame (feedBytes d.startSentence body).2 = some f := by
    rw [← h, ← lastFrame_segment d ht, lastFrame_feed_cons _ _ _ (by simp), feedByte_charT]
  obtain ⟨hframes, hidle⟩ := feedBytes_of_lastFrame ht hlast
  obtain ⟨n, hn⟩ : ∃ n, body.length = n + 1 := ⟨_, by rw [hlen, Nat.add_right_comm]⟩
  rw [feedBytes_cons, feedByte_charT, hframes]
  exact ⟨by simp [hn, List.replicate_succ], hidle⟩

/-! ### Any stream, by its current segment (rule R111) -/

theorem currentSegment_cons_of_mem {b : Byte} {bs : List Byte} (ht : charT ∈ bs) :
    currentSegment (b :: bs) = currentSegment bs := if_pos ht

theorem currentSegment_charT_cons {bs : List Byte} (ht : charT ∉ bs) : currentSegment (charT :: bs) = charT :: bs := by
  rw [currentSegment, if_neg ht, if_pos rfl]

/-- The bytes before the current segment do not matter: `'t'` starts it from every decoder state. -/
theorem lastFrame_of_charT_mem (d : Decoder) {bytes : List Byte} (ht : charT ∈ bytes) :
    lastFrame (feedBytes d bytes).2 = sentenceFrame (currentSegment bytes) := by
  induction bytes generalizing d with
  | nil => cases ht
  | cons b bs ih =>
    by_cases hbs : charT ∈ bs
    · obtain ⟨c, cs, rfl⟩ := List.exists_cons_of_ne_nil (List.ne_nil_of_mem hbs)
      rw [lastFrame_feed_cons_cons, ih _ hbs, currentSegment_cons_of_mem hbs]
    · obtain rfl : charT = b := (List.mem_cons.mp ht).resolve_right hbs
      rw [lastFrame_segment d hbs, currentSegment_charT_cons hbs]

/-- Without a type character there is no current segment. -/
theorem currentSegment_of_charT_notMem {bytes : List Byte} (ht : charT ∉ bytes) : currentSegment bytes = [] := by
  cases bytes with
  | nil => rfl
  | cons b bs =>
    obtain ⟨hb, hbs⟩ := List.ne_and_not_mem_of_not_mem_cons ht
    rw [currentSegment, if_neg hbs, if_neg hb.symm]

/-- From an idle decoder the last byte gives the frame of the current segment, if that is a sentence. -/
theorem lastFrame_idle_eq_currentSegment {d : Decoder} (hs : d.st = .idle) (bytes : List Byte) :
    lastFrame (feedBytes d bytes).2 = sentenceFrame (currentSegment bytes) := by
  by_cases ht : charT ∈ bytes
  · exact lastFrame_of_charT_mem d ht
  · rw [lastFrame_idle d bytes hs ht, currentSegment_of_charT_notMem ht]
    rfl

/-- Rule R111 for one FEED after any bytes since a reset. -/
theorem feedByte_frame_eq_currentSegment (bytes : List Byte) (b : Byte) :
    (feedByte (feedBytes Decoder.reset bytes).1 b).2 = sentenceFrame (currentSegment (bytes ++ [b])) := by
  rw [← lastFrame_idle_eq_currentSegment (d := Decoder.reset) rfl, lastFrame_feed_append]
  rfl

/-- Bytes fed since a reset that are at no point a sentence give nothing (rule R113). -/
theorem feedBytes_junk (junk : List Byte) (h : ∀ n, sentenceFrame (currentSegment (junk.take n)) = none) :
    (feedBytes Decoder.reset junk).2 = List.replicate junk.length none := by
  induction junk using List.reverseRecOn with
  | nil => rfl
  | append_singleton bytes b ih =>
    have hbytes : ∀ n, sentenceFrame (currentSegment (bytes.take n)) = none := fun n => by
      have := h (min n bytes.length)
      rwa [List.take_append_of_le_length (Nat.min_le_right _ _), List.take_eq_take_min.symm] at this
    have hlast := h (bytes ++ [b]).length
    rw [List.take_length, ← feedByte_frame_eq_currentSegment] at hlast
    simp [feedBytes_append, feedBytes_cons, ih hbytes, hlast, List.replicate_succ']

/-! ### A rendered frame is a sentence (rules R130 and R131) -/

/-- The two digits of a byte spell it, the high nibble first (rule R72). -/
theorem nibbles_of_byte (b : Byte) : b.extractLsb' 4 4 ++ b.extractLsb' 0 4 = b := by
  rw [← nibbles_join]
  apply BitVec.eq_of_toNat_eq
  simp [Nat.shiftRight_eq_div_pow]
  omega

theorem payloadText_flatMap_hexByte (p : List Byte) : payloadText p.length (p.flatMap hexByte ++ [charCR]) = some p := by
  induction p with
  | nil => rfl
  | cons b p ih => simp [payloadText, hexByte, ih, nibbles_of_byte]

/-- The digits the encoder writes spell the identifier (rules R70 and R130). -/
theorem identOfDigits_extract (id : Ident) :
    identOfDigits ((id.extractLsb' 8 3).setWidth 4) (id.extractLsb' 4 4) (id.extractLsb' 0 4) = id := by
  have := id.isLt
  unfold identOfDigits
  apply BitVec.eq_of_toNat_eq
  simp [Nat.shiftRight_eq_div_pow]
  omega

/-- What the encoder writes is one sentence, and spells the frame it was given. -/
theorem sentenceFrame_renderSentence {id : Ident} {len : Len} {data : Bus} (h8 : len.toNat ≤ 8) :
    sentenceFrame (renderSentence id len data) = some ⟨id, len, payloadBytes data len.toNat⟩ := by
  have hmax : len ≤ Config.maxDlc := h8
  have hfirst : (id.extractLsb' 8 3).setWidth 4 ≤ 7#4 := by
    rw [BitVec.le_def]
    simp
    omega
  have hp := payloadText_flatMap_hexByte (payloadBytes data len.toNat)
  rw [length_payloadBytes] at hp
  simp [renderSentence, sentenceFrame, hmax, hfirst, hp, identOfDigits_extract]

end Sys2Proof.Machine

namespace Sys2Proof.Proofs
open Sys2Proof.Machine

/-- Settles O22: the frame read back from the outputs is what the byte gave, and a frame the grammar spells has rule R11's
shape. -/
theorem emissionIsTheCurrentSegmentsFrame : Obligations.EmissionIsTheCurrentSegmentsFrame := by
  intro s bytes b hs
  refine ⟨_, exec_feed b s, ?_⟩
  rw [State.drive_out, hs, feedByte_frame_eq_currentSegment]
  rcases hf : sentenceFrame (currentSegment (bytes ++ [b])) with _ | f
  · rfl
  · exact frame_ofFeed f (sentenceFrame_shape _ _ hf).1

/-- Settles O23: a sentence does not depend on the decoder state that the bytes before it leave. -/
theorem resynchronisation : Obligations.Resynchronisation :=
  ⟨fun d junk _ _ h => feedBytes_sentence (feedBytes d junk).1 h, feedBytes_junk⟩

/-- Settles O24: what ENCODE renders is a sentence of `6 + 2n` bytes that spells its operands. -/
theorem encodeThenFeedRoundTrip : Obligations.EncodeThenFeedRoundTrip := by
  intro d id len data h8
  have hlen : (renderSentence id len data).length - 1 = 5 + 2 * len.toNat := by
    rw [length_renderSentence]
    omega
  rw [(feedBytes_sentence d (sentenceFrame_renderSentence h8)).1, hlen]

end Sys2Proof.Proofs
end

section
/-! PROOFS. The FrameEncoder (rules R130 to R132): when ENCODE answers and what, and the rendered sentence byte by byte. -/

namespace Sys2Proof.Machine

/-! ### What ENCODE answers -/

theorem exec_encode_of_le {len : Len} (h8 : len.toNat ≤ 8) (id : Ident) (data : Bus) (s : State) :
    exec (.encode id len data) s = .next (s.drive (.ofSentence (renderSentence id len data))) :=
  execEncode_of_le id len data s h8

theorem exec_encode_of_gt {len : Len} (h9 : 8 < len.toNat) (id : Ident) (data : Bus) (s : State) :
    exec (.encode id len data) s = .refused (.lengthAboveEight len) :=
  if_neg (Nat.not_le.mpr h9)

/-! ### The sentence, byte by byte (rule R130) -/

/-- Byte `k` of a payload is written at places `2k` and `2k + 1`, the high nibble first (rules R72 and R130). -/
theorem getElem?_flatMap_hexByte_append {p : List Byte} {k : Nat} {b : Byte} (hb : p[k]? = some b) (t : List Byte) :
    (p.flatMap hexByte ++ t)[2 * k]? = some (hexChar (b.extractLsb' 4 4)) ∧
      (p.flatMap hexByte ++ t)[2 * k + 1]? = some (hexChar (b.extractLsb' 0 4)) := by
  induction p generalizing k with
  | nil => simp at hb
  | cons c p ih =>
    cases k with
    | zero =>
      obtain rfl : c = b := by simpa using hb
      simp [hexByte]
    | succ k => simpa [hexByte, Nat.mul_succ] using ih (by simpa using hb)

/-- From place 5 on stand the payload's digits and the terminator. -/
theorem getElem?_renderSentence_add_five (id : Ident) (len : Len) (data : Bus) (i : Nat) :
    (renderSentence id len data)[i + 5]? = ((payloadBytes data len.toNat).flatMap hexByte ++ [charCR])[i]? := by
  simp [renderSentence]

theorem getElem?_renderSentence_payload (id : Ident) {len : Len} (data : Bus) {k : Nat} (hk : k < len.toNat) :
    (renderSentence id len data)[5 + 2 * k]? = some (hexChar ((byteAt data k).extractLsb' 4 4)) ∧
      (renderSentence id len data)[6 + 2 * k]? = some (hexChar ((byteAt data k).extractLsb' 0 4)) := by
  have hb : (payloadBytes data len.toNat)[k]? = some (byteAt data k) := by simp [payloadBytes, hk]
  rw [Nat.add_comm 5, show 6 + 2 * k = 2 * k + 1 + 5 by omega, getElem?_renderSentence_add_five,
    getElem?_renderSentence_add_five]
  exact getElem?_flatMap_hexByte_append hb [charCR]

/-- The last of the sentence's `6 + 2n` bytes is the terminator. -/
theorem getElem?_renderSentence_terminator (id : Ident) (len : Len) (data : Bus) :
    (renderSentence id len data)[5 + 2 * len.toNat]? = some charCR := by
  have hlast : (renderSentence id len data).length - 1 = 5 + 2 * len.toNat := by
    rw [length_renderSentence]
    omega
  rw [← hlast, ← List.getLast?_eq_getElem?, renderSentence, List.getLast?_concat]

/-! ### The sentence on the output bus -/

/-- A byte of the sentence stands in the lane of its place (rule R62). -/
theorem byteAt_packBytes_of_getElem? {bytes : List Byte} {j : Nat} {b : Byte} (hj : j < 22) (hb : bytes[j]? = some b) :
    byteAt (packBytes 176 bytes) j = b := by
  rw [byteAt_packBytes 176 bytes j (by omega), List.getD_eq_getElem?_getD, hb, Option.getD_some]

/-- The lanes past the sentence are 0x00. -/
theorem byteAt_packBytes_of_length_le {bytes : List Byte} {j : Nat} (hj : j < 22) (hlen : bytes.length ≤ j) :
    byteAt (packBytes 176 bytes) j = 0 := by
  rw [byteAt_packBytes 176 bytes j (by omega), List.getD_eq_default _ _ hlen]

/-! ### A field of bits as a number -/

/-- Four bits of a word are its quotient by their place. -/
theorem extractLsb'_four_eq_ofNat {w : Nat} (x : BitVec w) (i : Nat) :
    x.extractLsb' i 4 = BitVec.ofNat 4 (x.toNat / 2 ^ i) := by
  rw [← Nat.shiftRight_eq_div_pow]
  rfl

/-- The first digit holds the three bits that are left above the other two. -/
theorem topDigit_eq_ofNat (id : Ident) : (id.extractLsb' 8 3).setWidth 4 = BitVec.ofNat 4 (id.toNat / 2 ^ 8) := by
  have hid : id.toNat < 2 ^ 11 := id.isLt
  apply BitVec.eq_of_toNat_eq
  simp [Nat.shiftRight_eq_div_pow]
  omega

end Sys2Proof.Machine

namespace Sys2Proof.Proofs
open Sys2Proof.Machine

/-- Settles O31: above 8 the length test fails. -/
theorem encodeRefusesLongLength : Obligations.EncodeRefusesLongLength :=
  fun s id _ data h9 => exec_encode_of_gt h9 id data s

/-- Settles O32: a text the grammar accepts is `'t'` and a body without another. -/
theorem encodedSentenceIsWellFormed : Obligations.EncodedSentenceIsWellFormed := by
  intro id len data h8
  have hframe := sentenceFrame_renderSentence (id := id) (data := data) h8
  obtain ⟨-, body, hbody, ht, -⟩ := sentenceFrame_shape _ _ hframe
  refine ⟨hframe, rfl, ?_⟩
  rw [hbody]
  exact ht

/-- Settles O30: the bus is the rendered sentence packed, so each lane is the list's byte at that place. -/
theorem encodeRendersSentence : Obligations.EncodeRendersSentence := by
  intro s id len data h8
  refine ⟨packBytes 176 (renderSentence id len data), ?_, ?_, ?_, ?_, ?_, ?_, fun k hk => ?_, ?_, fun j hle hj => ?_⟩
  · rw [exec_encode_of_le h8, Outputs.ofSentence, length_renderSentence]
    rfl
  · exact byteAt_packBytes_of_getElem? (by omega) rfl
  · exact byteAt_packBytes_of_getElem? (by omega) (congrArg (fun d => some (hexChar d)) (topDigit_eq_ofNat id))
  · exact byteAt_packBytes_of_getElem? (by omega) (congrArg (fun d => some (hexChar d)) (extractLsb'_four_eq_ofNat id 4))
  · exact byteAt_packBytes_of_getElem? (by omega) rfl
  · exact byteAt_packBytes_of_getElem? (by omega) rfl
  · obtain ⟨hhi, hlo⟩ := getElem?_renderSentence_payload id data hk
    rw [extractLsb'_four_eq_ofNat] at hhi
    exact ⟨byteAt_packBytes_of_getElem? (by omega) hhi, byteAt_packBytes_of_getElem? (by omega) hlo⟩
  · exact byteAt_packBytes_of_getElem? (by omega) (getElem?_renderSentence_terminator id len data)
  · exact byteAt_packBytes_of_length_le hj (by rw [length_renderSentence]; exact hle)

end Sys2Proof.Proofs
end

section
/-! PROOFS. The AddressCodec (rules R150 to R153): the fields of an identifier and the composed identifier as numbers,
and the inverse laws between them. -/

namespace Sys2Proof.Machine

/-! ### What COMPOSE, NODE_OF and CLASS_OF answer -/

theorem exec_compose (node cls : Ident) (s : State) :
    exec (.compose node cls) s = .next (s.drive { idOut := some (composeIdent node cls) }) := rfl

theorem exec_nodeOf (id : Ident) (s : State) :
    exec (.nodeOf id) s = .next (s.drive { nodeOut := some (nodeField id) }) := rfl

theorem exec_classOf (id : Ident) (s : State) :
    exec (.classOf id) s = .next (s.drive { clsOut := some (classField id) }) := rfl

/-! ### The fields and the composition as numbers (rules R150 to R152) -/

theorem toNat_composeIdent (node cls : Ident) : (composeIdent node cls).toNat = (node.toNat + cls.toNat) % 2 ^ 11 :=
  BitVec.toNat_add node cls

@[simp] theorem toNat_nodeField (id : Ident) : (nodeField id).toNat = id.toNat % 0x80 := by
  simp [nodeField]

/-- An operand port holds the seven bits of a node without loss (rule R61). -/
theorem toNat_setWidth_nodeField (id : Ident) : ((nodeField id).setWidth 11).toNat = id.toNat % 0x80 := by
  rw [BitVec.toNat_setWidth_of_le (by omega), toNat_nodeField]

/-- The node is at most the identifier, so the subtraction does not wrap. -/
@[simp] theorem toNat_classField (id : Ident) : (classField id).toNat = id.toNat - id.toNat % 0x80 := by
  have hle : (nodeField id).setWidth 11 ≤ id := by
    rw [BitVec.le_def, toNat_setWidth_nodeField]
    exact Nat.mod_le _ _
  rw [classField, BitVec.toNat_sub_of_le hle, toNat_setWidth_nodeField]

/-! ### The inverse laws (rule R153) -/

/-- The greatest class is 0x780, which leaves room for every node up to 0x7F: nothing is reduced. -/
theorem toNat_composeIdent_of_fields {node cls : Ident} (hnode : node.toNat ≤ 0x7F) (hcls : cls.toNat % 0x80 = 0) :
    (composeIdent node cls).toNat = node.toNat + cls.toNat := by
  have hlt : cls.toNat < 2 ^ 11 := cls.isLt
  rw [toNat_composeIdent]
  omega

theorem toNat_nodeField_composeIdent {node cls : Ident} (hnode : node.toNat ≤ 0x7F) (hcls : cls.toNat % 0x80 = 0) :
    (nodeField (composeIdent node cls)).toNat = node.toNat := by
  rw [toNat_nodeField, toNat_composeIdent_of_fields hnode hcls]
  omega

theorem classField_composeIdent {node cls : Ident} (hnode : node.toNat ≤ 0x7F) (hcls : cls.toNat % 0x80 = 0) :
    classField (composeIdent node cls) = cls := by
  apply BitVec.eq_of_toNat_eq
  rw [toNat_classField, toNat_composeIdent_of_fields hnode hcls]
  omega

/-- The class is what the node leaves of the identifier, so adding the node gives the identifier back. -/
theorem composeIdent_nodeField_classField (id : Ident) :
    composeIdent ((nodeField id).setWidth 11) (classField id) = id := by
  rw [composeIdent, classField, BitVec.add_comm, BitVec.sub_add_cancel]

end Sys2Proof.Machine

namespace Sys2Proof.Proofs
open Sys2Proof.Machine

/-- Settles O34: the sum of two words is the reduced sum of their numbers. -/
theorem composeAddsModulo : Obligations.ComposeAddsModulo := by
  intro s node cls
  rw [exec_compose, ← toNat_composeIdent, BitVec.ofNat_toNat, BitVec.setWidth_eq]
  rfl

/-- Settles O35: seven bits are the remainder by 0x80. -/
theorem nodeOfIsModulo : Obligations.NodeOfIsModulo := by
  intro s id
  rw [exec_nodeOf, ← toNat_nodeField, BitVec.ofNat_toNat, BitVec.setWidth_eq]
  rfl

/-- Settles O36: the remainder taken away leaves a multiple of 0x80. -/
theorem classOfRoundsDown : Obligations.ClassOfRoundsDown := by
  refine fun s id => ⟨?_, Nat.sub_mod_eq_zero_of_mod_eq (Nat.mod_mod _ _).symm⟩
  rw [exec_classOf, ← toNat_classField, BitVec.ofNat_toNat, BitVec.setWidth_eq]
  rfl

/-- Settles O37: a node below 0x80 and a multiple of 0x80 add without a carry between them, and any identifier is such a
sum. -/
theorem composeInverseLaws : Obligations.ComposeInverseLaws :=
  ⟨fun _ _ hnode hcls => ⟨toNat_nodeField_composeIdent hnode hcls, classField_composeIdent hnode hcls,
    toNat_composeIdent_of_fields hnode hcls⟩, composeIdent_nodeField_classField⟩

end Sys2Proof.Proofs
end

section
/-! PROOFS. The Float16Codec (rules R173 and R176): what F16TO32 answers, and its value where the mantissa is 0 and the
exponent is at one of its two ends. -/

namespace Sys2Proof.Machine

theorem exec_f16to32 (h : BitVec 16) (s : State) :
    exec (.f16to32 h) s = .next (s.drive { fOut := some (f16To32 h) }) := rfl

/-- A zero keeps its sign (rule R173). -/
theorem f16To32_of_zero {h : BitVec 16} (he : h.extractLsb' 10 5 = 0) (hm : h.extractLsb' 0 10 = 0) :
    f16To32 h = h.extractLsb' 15 1 ++ 0#31 := by
  rw [f16To32, f16To32With, if_pos ⟨he, hm⟩]

/-- An infinity keeps its sign; an exponent of 31 is neither a zero's nor a subnormal's (rule R176). -/
theorem f16To32_of_infinity {h : BitVec 16} (he : h.extractLsb' 10 5 = 31) (hm : h.extractLsb' 0 10 = 0) :
    f16To32 h = h.extractLsb' 15 1 ++ 0xFF#8 ++ 0#23 := by
  have hne : h.extractLsb' 10 5 ≠ 0 := by rw [he]; decide
  rw [f16To32, f16To32With, if_neg fun hzero => hne hzero.1, if_neg hne, if_pos ⟨he, hm⟩]

end Sys2Proof.Machine

namespace Sys2Proof.Proofs
open Sys2Proof.Machine

/-- Settles O38: two zeros and two infinities, which the sign bit alone tells apart. -/
theorem f16ZerosAndInfinities : Obligations.F16ZerosAndInfinities := by
  refine fun s => ⟨?_, ?_, ?_, ?_⟩
  · rw [exec_f16to32, f16To32_of_zero rfl rfl]
    rfl
  · rw [exec_f16to32, f16To32_of_zero rfl rfl]
    rfl
  · rw [exec_f16to32, f16To32_of_infinity rfl rfl]
    rfl
  · rw [exec_f16to32, f16To32_of_infinity rfl rfl]
    rfl

end Sys2Proof.Proofs
end

section
/-! PROOFS. The payload fields (rules R44 and R190 to R193): what the Get operations read as a number, and which bytes the
Put operations write. -/

namespace Sys2Proof.Machine

/-! ### What GetU16 and GetU32 read (rules R190 and R191) -/

/-- Two words laid side by side, the lower one last, as a number. -/
theorem toNat_append_eq_add {m n : Nat} (hi : BitVec m) (lo : BitVec n) :
    (hi ++ lo).toNat = lo.toNat + 2 ^ n * hi.toNat := by
  rw [BitVec.toNat_append, ← Nat.shiftLeft_add_eq_or_of_lt lo.isLt, Nat.shiftLeft_eq, Nat.mul_comm, Nat.add_comm]

/-- A 32-bit field is its halves, the low one at the field's own offset (rule R44). -/
theorem getU32_eq_append (data : Bus) (off : Fin 5) :
    getU32 data off = getU16 data ⟨off.val + 2, by omega⟩ ++ getU16 data ⟨off.val, by omega⟩ := rfl

theorem toNat_getU16 (data : Bus) (off : Fin 7) :
    (getU16 data off).toNat = (byteAt data off.val).toNat + 256 * (byteAt data (off.val + 1)).toNat :=
  toNat_append_eq_add _ _

theorem toNat_getU32 (data : Bus) (off : Fin 5) :
    (getU32 data off).toNat =
      (byteAt data off.val).toNat + 2 ^ 8 * (byteAt data (off.val + 1)).toNat +
        2 ^ 16 * (byteAt data (off.val + 2)).toNat + 2 ^ 24 * (byteAt data (off.val + 3)).toNat := by
  have hlow : (getU16 data ⟨off.val, by omega⟩).toNat =
      (byteAt data off.val).toNat + 256 * (byteAt data (off.val + 1)).toNat := toNat_getU16 data _
  have hhigh : (getU16 data ⟨off.val + 2, by omega⟩).toNat =
      (byteAt data (off.val + 2)).toNat + 256 * (byteAt data (off.val + 3)).toNat := toNat_getU16 data _
  rw [getU32_eq_append, toNat_append_eq_add, hlow, hhigh]
  omega

/-! ### What PutU8, PutU32 and Zero8 write (rule R192) -/

theorem byteAt_putU8 (data : Bus) (off k : Fin 8) (v : Byte) :
    byteAt (putU8 data off v) k = if k = off then v else byteAt data k := by
  rw [putU8, byteAt_setByte data off.val k.val v off.isLt k.isLt]
  simp only [Fin.ext_iff]

/-- PutU32 is four bytes replaced one after the other, lane `i` of the value at `off + i`. -/
theorem byteAt_putU32_eq_ite (data : Bus) (off : Fin 5) (v : Word32) (k : Fin 8) :
    byteAt (putU32 data off v) k =
      if k.val = off.val + 3 then byteAt v 3 else if k.val = off.val + 2 then byteAt v 2
      else if k.val = off.val + 1 then byteAt v 1 else if k.val = off.val then byteAt v 0 else byteAt data k := by
  rw [putU32, byteAt_setByte _ _ _ _ (by omega) k.isLt, byteAt_setByte _ _ _ _ (by omega) k.isLt,
    byteAt_setByte _ _ _ _ (by omega) k.isLt, byteAt_setByte _ _ _ _ (by omega) k.isLt]
  rfl

theorem byteAt_putU32_lane (data : Bus) (off : Fin 5) (v : Word32) (k : Fin 8) (hlo : off.val ≤ k.val)
    (hhi : k.val < off.val + 4) : byteAt (putU32 data off v) k = byteAt v (k.val - off.val) := by
  rw [byteAt_putU32_eq_ite]
  obtain ⟨i, hi⟩ : ∃ i, k.val = off.val + i := ⟨_, (Nat.add_sub_of_le hlo).symm⟩
  have hi4 : i < 4 := by omega
  interval_cases i <;> simp [hi]

theorem byteAt_putU32_outside (data : Bus) (off : Fin 5) (v : Word32) (k : Fin 8)
    (hout : ¬ (off.val ≤ k.val ∧ k.val < off.val + 4)) : byteAt (putU32 data off v) k = byteAt data k := by
  rw [byteAt_putU32_eq_ite, if_neg (by omega), if_neg (by omega), if_neg (by omega), if_neg (by omega)]

theorem byteAt_zero8 (k : Nat) : byteAt zero8 k = 0 := BitVec.extractLsb'_zero

end Sys2Proof.Machine

namespace Sys2Proof.Proofs
open Sys2Proof.Machine

/-- Settles O48: a field is its bytes laid side by side, the lowest last. -/
theorem fieldsAreLittleEndian : Obligations.FieldsAreLittleEndian :=
  fun data => ⟨toNat_getU16 data, toNat_getU32 data, getU32_eq_append data⟩

/-- Settles O49: a byte of the payload is within the four bytes of the field or outside. -/
theorem putFieldsWriteTheirBytesOnly : Obligations.PutFieldsWriteTheirBytesOnly := by
  refine ⟨fun data off v k => ?_, byteAt_putU8, fun k => byteAt_zero8 k⟩
  split_ifs with hin
  · exact byteAt_putU32_lane data off v k hin.1 hin.2
  · exact byteAt_putU32_outside data off v k hin

end Sys2Proof.Proofs
end

section
/-! PROOFS. The TelemetryCodec (rules R196 to R203): which identifiers are of which class, the outcome of each class, and
the record as numbers. -/

namespace Sys2Proof.Machine

theorem exec_telemDecode (id : Ident) (len : Len) (data : Bus) (s : State) :
    exec (.telemDecode id len data) s = .next (s.drive (.ofTelem (telemOutcome id len data))) := rfl

/-! ### The class of an identifier, by its quotient by 0x80 (rules R76 and R198) -/

theorem classField_eq_iff (id cls : Ident) : classField id = cls ↔ 0x80 * (id.toNat / 0x80) = cls.toNat := by
  rw [← BitVec.toNat_inj, toNat_classField]
  omega

theorem classField_eq_telemetry_iff (id : Ident) : classField id = Config.classTelemetry ↔ id.toNat / 0x80 = 3 := by
  have hcls : Config.classTelemetry.toNat = 0x180 := rfl
  rw [classField_eq_iff, hcls]
  omega

theorem classField_mem_reserved_iff (id : Ident) :
    classField id ∈ Config.classReserved ↔ id.toNat / 0x80 ∈ [5, 7, 9] := by
  have h280 : Config.classReserved280.toNat = 0x280 := rfl
  have h380 : Config.classReserved380.toNat = 0x380 := rfl
  have h480 : Config.classReserved480.toNat = 0x480 := rfl
  simp only [Config.classReserved, List.mem_cons, List.not_mem_nil, or_false, classField_eq_iff, h280, h380, h480]
  omega

/-! ### The outcome of each class (rules R199 to R202) -/

theorem telemOutcome_eq_record {id : Ident} (hcls : id.toNat / 0x80 = 3) (data : Bus) :
    telemOutcome id 8 data = .record (telemetryRecord data) := by
  rw [telemOutcome, if_pos ((classField_eq_telemetry_iff id).mpr hcls), if_pos rfl]

theorem telemOutcome_eq_wrongLength {id : Ident} {len : Len} (hcls : id.toNat / 0x80 = 3) (hlen : len ≠ 8) (data : Bus) :
    telemOutcome id len data = .wrongLength := by
  rw [telemOutcome, if_pos ((classField_eq_telemetry_iff id).mpr hcls), if_neg hlen]

/-- Outside class 0x180 the length is not read. -/
theorem telemOutcome_of_ne_telemetry {id : Ident} (hcls : id.toNat / 0x80 ≠ 3) (len : Len) (data : Bus) :
    telemOutcome id len data = if id.toNat / 0x80 ∈ [5, 7, 9] then .reservedClass else .otherClass := by
  rw [telemOutcome, if_neg (mt (classField_eq_telemetry_iff id).mp hcls)]
  simp only [classField_mem_reserved_iff]

/-! ### The record as numbers (rules R190, R191 and R196) -/

theorem getU16_eq_ofNat (data : Bus) (off : Fin 7) :
    getU16 data off = BitVec.ofNat 16 ((byteAt data off.val).toNat + 256 * (byteAt data (off.val + 1)).toNat) := by
  rw [← toNat_getU16, BitVec.ofNat_toNat, BitVec.setWidth_eq]

theorem getU32_eq_ofNat (data : Bus) (off : Fin 5) :
    getU32 data off =
      BitVec.ofNat 32 ((byteAt data off.val).toNat + 2 ^ 8 * (byteAt data (off.val + 1)).toNat +
        2 ^ 16 * (byteAt data (off.val + 2)).toNat + 2 ^ 24 * (byteAt data (off.val + 3)).toNat) := by
  rw [← toNat_getU32, BitVec.ofNat_toNat, BitVec.setWidth_eq]

/-- The voltage sample is a binary16 in this hardware (rule R179). -/
theorem telemetryRecord_eq (data : Bus) :
    telemetryRecord data =
      { faultBits := getU16 data 0, busVoltage := f16To32 (getU16 data 2), speed := getU32 data 4 } := rfl

end Sys2Proof.Machine

namespace Sys2Proof.Proofs
open Sys2Proof.Machine

/-- Settles O44: 0x180..0x1FF is the quotient 3, and the three fields are read as numbers. -/
theorem telemetryRecordProduced : Obligations.TelemetryRecordProduced := by
  intro s id data hlo hhi
  have hcls : id.toNat / 0x80 = 3 := by omega
  rw [exec_telemDecode, telemOutcome_eq_record hcls, telemetryRecord_eq, getU16_eq_ofNat, getU16_eq_ofNat,
    getU32_eq_ofNat]
  rfl

/-- Settles O45: class 0x180 tests the length. -/
theorem telemetryWrongLength : Obligations.TelemetryWrongLength := by
  intro s id len data hlo hhi hlen
  have hcls : id.toNat / 0x80 = 3 := by omega
  rw [exec_telemDecode, telemOutcome_eq_wrongLength hcls hlen]
  rfl

/-- Settles O46: the three ranges are the quotients 5, 7 and 9. -/
theorem telemetryReservedClasses : Obligations.TelemetryReservedClasses := by
  intro s id len data hrange
  have hcls : id.toNat / 0x80 ∈ [5, 7, 9] := by
    simp only [List.mem_cons, List.not_mem_nil, or_false]
    omega
  rw [exec_telemDecode, telemOutcome_of_ne_telemetry (by omega), if_pos hcls]
  rfl

/-- Settles O47: none of the twelve quotients is 3, 5, 7 or 9. -/
theorem telemetryOtherClasses : Obligations.TelemetryOtherClasses := by
  intro s id len data hother
  have hcls : id.toNat / 0x80 ≠ 3 ∧ id.toNat / 0x80 ∉ [5, 7, 9] := by
    simp only [List.mem_cons, List.not_mem_nil, or_false] at hother ⊢
    omega
  rw [exec_telemDecode, telemOutcome_of_ne_telemetry hcls.1, if_neg hcls.2]
  rfl

end Sys2Proof.Proofs
end

section
/-! PROOFS. The CommandCodec (rules R204 to R207): the command payloads as words, and every command as ENCODE of the
composed identifier, length 8 and its payload. -/

namespace Sys2Proof.Machine

/-! ### What the command operations answer -/

theorem exec_cmdSpeed (node : Ident) (speed : Word32) (s : State) :
    exec (.cmdSpeed node speed) s = driveCommand node (speedPayload speed) s := rfl

theorem exec_cmdStop (node : Ident) (s : State) : exec (.cmdStop node) s = driveCommand node stopPayload s := rfl

theorem exec_cmdReset (node : Ident) (s : State) : exec (.cmdReset node) s = driveCommand node resetPayload s := rfl

/-! ### The payloads (rule R75) -/

/-- A bus of two 32-bit words: the lower one is bytes 0 to 3, the upper one bytes 4 to 7. -/
theorem byteAt_append (hi lo : Word32) (k : Nat) :
    byteAt (hi ++ lo) k = if k < 4 then byteAt lo k else byteAt hi (k - 4) := by
  unfold byteAt
  split_ifs
  · exact BitVec.extractLsb'_append_eq_of_add_le (by omega)
  · rw [BitVec.extractLsb'_append_eq_of_le (by omega), Nat.mul_sub]

/-- The code, three zero bytes, and the speed bit for bit above them (rules R75 and R205). -/
theorem speedPayload_eq_append (speed : Word32) : speedPayload speed = speed ++ 0x20#32 := by
  refine bus_ext _ _ fun k hk => ?_
  rw [byteAt_append, speedPayload]
  split_ifs with hlow
  · rw [byteAt_putU32_outside _ 4 speed ⟨k, hk⟩ fun h => Nat.not_lt.mpr h.1 hlow, byteAt_putU8, byteAt_zero8]
    interval_cases k <;> rfl
  · exact byteAt_putU32_lane _ 4 speed ⟨k, hk⟩ (Nat.not_lt.mp hlow) hk

theorem speedPayload_eq_ofNat (speed : Word32) :
    speedPayload speed = BitVec.ofNat 64 (0x20 + 2 ^ 32 * speed.toNat) := by
  have hnum : (speed ++ 0x20#32).toNat = 0x20 + 2 ^ 32 * speed.toNat := toNat_append_eq_add speed 0x20#32
  rw [speedPayload_eq_append, ← hnum, BitVec.ofNat_toNat, BitVec.setWidth_eq]

theorem stopPayload_eq : stopPayload = 0x04 := by decide

theorem resetPayload_eq : resetPayload = 0x01 := by decide

/-! ### What every command is (rule R204) -/

/-- A sentence of length 8 has 22 bytes (rule R67). -/
theorem sentLen_commandSentence (node : Ident) (payload : Bus) :
    (Outputs.ofSentence (commandSentence node payload)).sentLen = some 22 := by
  rw [Outputs.ofSentence, commandSentence, length_renderSentence]
  rfl

theorem driveCommand_eq_exec_encode (node : Ident) (payload : Bus) (s : State) :
    driveCommand node payload s = exec (.encode (composeIdent node Config.classCommand) 8 payload) s := by
  rw [exec_encode_of_le (by decide), driveCommand_next, commandSentence]

/-- A command answers as ENCODE does, with 22 bytes of sentence, and changes the outputs only. -/
theorem driveCommand_renders (node : Ident) (payload : Bus) (s : State) :
    ∃ t : State, driveCommand node payload s = .next t ∧ exec (.encode (node + 0x200) 8 payload) s = .next t ∧
      t.out.sentLen = some 22 ∧ t.dec = s.dec ∧ t.requests = s.requests :=
  ⟨_, driveCommand_next node payload s, (driveCommand_eq_exec_encode node payload s).symm,
    sentLen_commandSentence node payload, rfl, rfl⟩

end Sys2Proof.Machine

namespace Sys2Proof.Proofs
open Sys2Proof.Machine

/-- Settles O50: the common law of the commands at the SpeedControl payload. -/
theorem cmdSpeedRendersSpeedControl : Obligations.CmdSpeedRendersSpeedControl := by
  intro s node speed
  rw [exec_cmdSpeed, ← speedPayload_eq_ofNat]
  exact driveCommand_renders node (speedPayload speed) s

/-- Settles O51: the common law of the commands at the Stop payload. -/
theorem cmdStopRendersStop : Obligations.CmdStopRendersStop := by
  intro s node
  rw [exec_cmdStop, ← stopPayload_eq]
  exact driveCommand_renders node stopPayload s

/-- Settles O52: the common law of the commands at the Reset payload; the block's decoder is kept (rule R13). -/
theorem cmdResetRendersReset : Obligations.CmdResetRendersReset := by
  intro s node
  rw [exec_cmdReset, ← resetPayload_eq]
  exact driveCommand_renders node resetPayload s

end Sys2Proof.Proofs
end

section
/-! PROOFS. NOP and the reserved operation codes (rules R208 and R209): both strobes 0, and no state changed. -/

namespace Sys2Proof.Machine

theorem exec_nop (s : State) : exec .nop s = .next (s.drive .noResult) := rfl

theorem exec_reservedB (s : State) : exec .reservedB s = exec .nop s := rfl

theorem exec_reservedCToF (low : BitVec 2) (s : State) : exec (.reservedCToF low) s = exec .nop s := rfl

end Sys2Proof.Machine

namespace Sys2Proof.Proofs
open Sys2Proof.Machine

/-- Settles O56: the outputs without a result are the two strobes at 0. -/
theorem nopChangesNothing : Obligations.NopChangesNothing := exec_nop

/-- Settles O57: both reserved rows answer as NOP does. -/
theorem reservedCodesAreNop : Obligations.ReservedCodesAreNop := fun s low =>
  ⟨(exec_reservedB s).trans (nopChangesNothing s), (exec_reservedCToF low s).trans (nopChangesNothing s)⟩

end Sys2Proof.Proofs
end

section
/-! PROOFS. The block reset (rules R260 and R262): the full next state of a step with `rst = 1`, and the stream after it. -/

namespace Sys2Proof.Machine

/-- The reset comes before the decoding, so a request that is no instruction is answered alike (rules R234 and R260). -/
theorem runRequest_of_rst {r : Request} (hrst : r.ports.rst = true) (s : State) :
    runRequest r s = .next s.blockReset :=
  if_pos hrst

/-- A step with `rst = 1` takes its request off the list and does nothing but the block reset. -/
theorem step_of_rst {s : State} {r : Request} {rs : List Request} (hreq : s.requests = r :: rs)
    (hrst : r.ports.rst = true) : step s = .next (s.withRequests rs).blockReset :=
  (step_cons hreq).trans (runRequest_of_rst hrst _)

/-- The reset keeps nothing of the state before it but the requests still to come (rules R29 and R260). -/
theorem State.blockReset_eq (s : State) :
    s.blockReset = { dec := Decoder.reset, requests := s.requests, out := Outputs.noResult } := rfl

end Sys2Proof.Machine

namespace Sys2Proof.Proofs
open Sys2Proof.Machine

/-- Settles O2: the next state of a reset step, field by field; the block is created with the same decoder. -/
theorem resetTakesPrecedence : Obligations.ResetTakesPrecedence := by
  refine ⟨fun s r rs hreq hrst => ?_, rfl⟩
  rw [step_of_rst hreq hrst, State.blockReset_eq, State.withRequests_requests, Decoder.reset, Outputs.noResult]

/-- Settles O27: the reset leaves the decoder idle, and an idle decoder ignores all but the type character. -/
theorem resetDiscardsSentenceInProgress : Obligations.ResetDiscardsSentenceInProgress := by
  intro s t r rs bytes hreq hrst hstep ht
  obtain rfl : (s.withRequests rs).blockReset = t := by
    simpa only [step_of_rst hreq hrst, Host.Outcome.next.injEq] using hstep
  have hidle : (s.withRequests rs).blockReset.dec.st = .idle := by
    rw [State.blockReset_dec, Decoder.reset]
  rw [feedBytes_idle _ bytes hidle ht]
  exact ⟨rfl, rfl⟩

end Sys2Proof.Proofs
end

section
/-! PROOFS. What the dispatch and the step do, by purity (rules R21, R27, R47 and R50): a pure instruction drives outputs that
its operands fix, any other one feeds its bytes; and what that keeps. -/

namespace Sys2Proof.Machine

/-! ### The meaning of an instruction, by purity -/

/-- The last of one FEED is that FEED. -/
@[simp] theorem lastFrame_singleton (f : Option CanFrame) : lastFrame [f] = f := rfl

theorem fedBytes_of_isPure {i : Instr} (hpure : isPure i = true) : fedBytes i = [] := List.isEmpty_iff.mp hpure

/-- FEED and the sentence are one meaning: the instruction's bytes are fed and the last FEED's frame is driven. -/
theorem exec_of_not_pure {i : Instr} (hfeeds : isPure i = false) (s : State) :
    exec i s = .next ((s.withDecoder (feedBytes s.dec (fedBytes i)).1).drive
      (.ofFeed (lastFrame (feedBytes s.dec (fedBytes i)).2))) := by
  cases i with
  | feed b => rw [exec_feed, fedBytes, feedBytes_cons, feedBytes_nil, lastFrame_singleton]
  | sentenceT body => rw [exec_sentenceT, fedBytes]
  | _ => cases hfeeds

/-- A pure instruction that answers drives the same outputs in every state. -/
theorem exec_pure_of_next {i : Instr} {s t : State} (hpure : isPure i = true) (h : exec i s = .next t) :
    ∃ o : Outputs, o.frame = none ∧ t = s.drive o ∧ ∀ u, exec i u = .next (u.drive o) := by
  rcases exec_pure i hpure with ⟨o, hframe, hdrive⟩ | ⟨r, -, hrefuse⟩
  · rw [hdrive] at h
    cases h
    exact ⟨o, hframe, rfl, hdrive⟩
  · rw [hrefuse] at h
    cases h

/-- Whatever an instruction is, its bytes are what it does to the decoder. -/
theorem exec_dec {i : Instr} {s t : State} (h : exec i s = .next t) : t.dec = (feedBytes s.dec (fedBytes i)).1 := by
  cases hi : isPure i with
  | true =>
    obtain ⟨o, -, rfl, -⟩ := exec_pure_of_next hi h
    rw [fedBytes_of_isPure hi, feedBytes_nil, State.drive_dec]
  | false =>
    rw [exec_of_not_pure hi] at h
    cases h
    rfl

theorem exec_requests {i : Instr} {s t : State} (h : exec i s = .next t) : t.requests = s.requests := by
  cases hi : isPure i with
  | true =>
    obtain ⟨o, -, rfl, -⟩ := exec_pure_of_next hi h
    rfl
  | false =>
    rw [exec_of_not_pure hi] at h
    cases h
    rfl

/-- No meaning reads the outputs of the step before (rule R22). -/
theorem exec_drive (i : Instr) (s : State) (o : Outputs) : exec i (s.drive o) = exec i s := by
  cases hi : isPure i with
  | true =>
    rcases exec_pure i hi with ⟨p, -, hdrive⟩ | ⟨r, -, hrefuse⟩
    · rw [hdrive, hdrive, State.drive_drive]
    · rw [hrefuse, hrefuse]
  | false =>
    rw [exec_of_not_pure hi, exec_of_not_pure hi]
    rfl

/-! ### The request of a step -/

theorem runRequest_of_decode {r : Request} {i : Instr} (hrst : r.ports.rst = false) (h : decode r = .ok i) (s : State) :
    runRequest r s = exec i s := by
  simp only [runRequest, hrst, h, Bool.false_eq_true, if_false]

theorem runRequest_of_error {r : Request} {e : DecodeError} (hrst : r.ports.rst = false) (h : decode r = .error e)
    (s : State) : runRequest r s = .refused (.undecodable e) := by
  simp only [runRequest, hrst, h, Bool.false_eq_true, if_false]

/-- Neither the reset nor the decoding reads the outputs of the step before. -/
theorem runRequest_drive (r : Request) (s : State) (o : Outputs) : runRequest r (s.drive o) = runRequest r s := by
  cases hrst : r.ports.rst with
  | true =>
    rw [runRequest_of_rst hrst, runRequest_of_rst hrst]
    rfl
  | false =>
    rcases h : decode r with e | i
    · rw [runRequest_of_error hrst h, runRequest_of_error hrst h]
    · rw [runRequest_of_decode hrst h, runRequest_of_decode hrst h, exec_drive]

theorem step_drive (s : State) (o : Outputs) : step (s.drive o) = step s := by
  rcases hreq : s.requests with _ | ⟨r, rs⟩
  · rw [step_nil (by rwa [State.drive_requests]), step_nil hreq, exec_drive]
  · rw [step_cons (by rwa [State.drive_requests]), step_cons hreq]
    exact runRequest_drive r (s.withRequests rs) o

/-! ### Rule R27 under bytes and under a step -/

theorem decoderInv_feedBytes {d : Decoder} (hd : DecoderInv d) (bytes : List Byte) :
    DecoderInv (feedBytes d bytes).1 := by
  induction bytes generalizing d with
  | nil => exact hd
  | cons b bs ih => exact ih (decoderInv_feedByte hd b)

theorem decoderInv_exec {i : Instr} {s t : State} (hd : DecoderInv s.dec) (h : exec i s = .next t) :
    DecoderInv t.dec := by
  rw [exec_dec h]
  exact decoderInv_feedBytes hd (fedBytes i)

theorem decoderInv_reset : DecoderInv Decoder.reset := decoderInv_of_idle_or_readingLength (.inl rfl)

end Sys2Proof.Machine

namespace Sys2Proof.Proofs
open Sys2Proof.Machine

/-- Settles O1: the head of the list is decoded and run; an empty list is NOP. -/
theorem stepRunsDecodedRequest : Obligations.StepRunsDecodedRequest :=
  ⟨fun _ _ _ _ hreq hrst hdec => (step_cons hreq).trans (runRequest_of_decode hrst hdec _), fun _ => step_nil⟩

/-- Settles O3: each field of `Decoder.reset`, and each of the eight cells. -/
theorem resetValuesOfEveryField : Obligations.ResetValuesOfEveryField :=
  ⟨rfl, rfl, rfl, rfl, rfl, rfl, by decide⟩

/-- Settles O5: every meaning drives outputs of its own over those it finds. -/
theorem outputsAreNotState : Obligations.OutputsAreNotState := step_drive

/-- Settles O20: the reset decoder is idle, where rule R27 binds nothing. -/
theorem resetMeetsDecoderInvariant : Obligations.ResetMeetsDecoderInvariant := decoderInv_reset

/-- Settles O21: a step runs NOP, the block reset or a decoded instruction, and an instruction only feeds bytes. -/
theorem stepKeepsDecoderInvariant : Obligations.StepKeepsDecoderInvariant := by
  intro s t hd h
  rcases step_cases h with ⟨-, hnop⟩ | ⟨r, rs, -, -, rfl⟩ | ⟨r, rs, i, -, -, -, hexec⟩
  · exact decoderInv_exec hd hnop
  · exact decoderInv_reset
  · exact decoderInv_exec (s := s.withRequests rs) hd hexec

/-- Settles O58: a pure instruction has no bytes to feed. -/
theorem onlyFeedChangesDecoder : Obligations.OnlyFeedChangesDecoder := by
  refine fun i s t h => ⟨fun hpure => ?_, exec_requests h⟩
  rw [exec_dec h, fedBytes_of_isPure hpure, feedBytes_nil]

/-- Settles O59: the outputs driven are the same in every state, and driving them twice is driving them once. -/
theorem pureOutputsDependOnOperandsOnly : Obligations.PureOutputsDependOnOperandsOnly := by
  intro i s t s' hpure h
  obtain ⟨o, -, rfl, hdrive⟩ := exec_pure_of_next hpure h
  exact ⟨⟨t.drive o, hdrive t, rfl, rfl⟩, by rw [hdrive, State.drive_drive]⟩

/-- Settles O60: FEED reads and writes the decoder only, the pure instruction the outputs only. -/
theorem feedCommutesWithPureInstructions : Obligations.FeedCommutesWithPureInstructions := by
  intro i b s t u hpure hi hfeed
  obtain ⟨o, -, rfl, hdrive⟩ := exec_pure_of_next hpure hi
  rw [exec_feed] at hfeed
  cases hfeed
  exact ⟨_, _, exec_feed b _, hdrive _, rfl, rfl, rfl⟩

end Sys2Proof.Proofs
end

section
/-! PROOFS. Runs of FEEDs (rules R78, R112 and R232): what one FEED leaves, a sentence as its FEED steps, and a run of
instructions as the bytes it feeds. -/

namespace Sys2Proof.Machine

/-! ### The sentence position (rule R25) -/

theorem sentencePosition_le_terminator {d : Decoder} (hd : DecoderInv d) (hs : d.st = .readingData) :
    sentencePosition d ≤ 5 + 2 * d.dlc.toNat := by
  obtain ⟨-, -, hdata⟩ := hd
  obtain ⟨-, hcnt⟩ := hdata hs
  simpa only [sentencePosition, hs, Nat.add_le_add_iff_left] using hcnt

theorem sentencePosition_le_max {d : Decoder} (hd : DecoderInv d) : sentencePosition d ≤ 5 + 16 := by
  rcases hs : d.st
  case readingData =>
    have hpos := sentencePosition_le_terminator hd hs
    obtain ⟨-, -, hdata⟩ := hd
    have h8 := (hdata hs).1
    omega
  all_goals
    simp only [sentencePosition, hs]
    omega

/-- Each accepted character is one position on; every other byte is the start of a sentence or `Idle` (rule R25). -/
theorem sentencePosition_feedByte {d : Decoder} (hd : DecoderInv d) (b : Byte) :
    sentencePosition (feedByte d b).1 = sentencePosition d + 1 ∨ sentencePosition (feedByte d b).1 = 1 ∨
      sentencePosition (feedByte d b).1 = 0 := by
  obtain ⟨hid, -, hdata⟩ := hd
  rcases feedByte_cases d b with ⟨-, e⟩ | ⟨-, hs, e⟩ | ⟨-, -, e⟩ | ⟨v, -, hs, -, e⟩ | ⟨v, -, hs, -, e⟩ |
    ⟨v, -, hs, hn, e⟩ | ⟨-, -, -, e⟩ <;> rw [e]
  · exact .inr (.inl rfl)
  · exact .inr (.inr (by simp only [sentencePosition, hs]))
  · exact .inr (.inr rfl)
  · refine .inl ?_
    have hcnt := (hid hs).1
    by_cases hlast : d.idCnt = 2
    · simp [sentencePosition, hs, hlast]
    · simp only [sentencePosition, hs, hlast, Decoder.acceptIdDigit_st, Decoder.acceptIdDigit_idCnt, if_false]
      bv_omega
  · exact .inl (by simp [sentencePosition, hs])
  · refine .inl ?_
    have h8 := (hdata hs).1
    simp only [sentencePosition, hs, Decoder.acceptNibble_st, Decoder.acceptNibble_nibCnt]
    bv_omega
  · exact .inr (.inr rfl)

/-! ### Recovery (rule R232) -/

/-- A byte that ends a sentence in progress, malformed or complete, writes `st` and nothing else. -/
theorem feedByte_of_ends {d : Decoder} {b : Byte} (hs : d.st ≠ .idle) (hend : (feedByte d b).1.st = .idle) :
    (feedByte d b).1 = d.recover := by
  rcases feedByte_cases d b with ⟨-, e⟩ | ⟨-, hidle, -⟩ | ⟨-, -, e⟩ | ⟨v, -, hid, -, e⟩ | ⟨v, -, -, -, e⟩ |
    ⟨v, -, hdata, -, e⟩ | ⟨-, -, -, e⟩
  · simp [e] at hend
  · exact absurd hidle hs
  · rw [e]
  · simp [e, hid, ite_eq_iff] at hend
  · simp [e] at hend
  · simp [e, hdata] at hend
  · rw [e]

/-! ### FEED requests through the step (rule R78) -/

theorem step_feedRequest (s : State) (b : Byte) (rs : List Request) :
    step (s.withRequests (encode (.feed b) :: rs)) =
      .next (((s.withDecoder (feedByte s.dec b).1).drive (.ofFeed (feedByte s.dec b).2)).withRequests rs) :=
  (step_cons rfl).trans ((runRequest_of_decode rfl rfl _).trans (exec_feed b _))

theorem run_succ_of_next {s t : State} (h : step s = .next t) (n : Nat) :
    Sys2Proof.core.run (n + 1) s = Sys2Proof.core.run n t := by
  have hcore : Sys2Proof.core.step s = .next t := h
  simp only [Host.Core.run, hcore]

/-- One FEED request per byte, run through the step, leaves what feeding the bytes leaves, and the last FEED's outputs. -/
theorem run_feedRequests (b : Byte) (bs : List Byte) (s : State) (rs : List Request) :
    Sys2Proof.core.run (bs.length + 1) (s.withRequests (feedRequests (b :: bs) ++ rs)) =
      .next (((s.withRequests rs).withDecoder (feedBytes s.dec (b :: bs)).1).drive
        (.ofFeed (lastFrame (feedBytes s.dec (b :: bs)).2))) := by
  induction bs generalizing s b with
  | nil => exact run_succ_of_next (step_feedRequest s b rs) 0
  | cons c cs ih =>
    have hfirst := run_succ_of_next (step_feedRequest s b (feedRequests (c :: cs) ++ rs)) (cs.length + 1)
    rw [lastFrame_feed_cons_cons]
    exact hfirst.trans (ih c _)

/-! ### The frames of a run (rule R112) -/

/-- Under rule R27 an emitted frame has the shape of rule R11, so the outputs carry it unchanged. -/
theorem frame_ofFeed_feedByte {d : Decoder} (hd : DecoderInv d) (b : Byte) :
    (Outputs.ofFeed (feedByte d b).2).frame = (feedByte d b).2 := by
  obtain ⟨-, -, hdata⟩ := hd
  rcases feedByte_cases d b with ⟨-, e⟩ | ⟨-, -, e⟩ | ⟨-, -, e⟩ | ⟨_, -, -, -, e⟩ | ⟨_, -, -, -, e⟩ |
    ⟨_, -, -, -, e⟩ | ⟨-, hs, -, e⟩ <;> rw [e]
  pick_goal 7
  · exact frame_ofFeed _ (frameOk_frame (hdata hs).1)
  all_goals rfl

/-- The frame of a well-formed sentence is what the last of its FEEDs returns. -/
theorem lastFrame_sentence (d : Decoder) {sentence : List Byte} {f : CanFrame} (h : sentenceFrame sentence = some f) :
    lastFrame (feedBytes d sentence).2 = some f := by
  rw [(feedBytes_sentence d h).1, lastFrame, List.getLast?_concat, Option.join_some]

/-- A well-formed instruction answers, and shows the frames that its bytes give. -/
theorem exec_frames {i : Instr} {s : State} (hd : DecoderInv s.dec) (hwf : i.wellFormed = true) :
    ∃ t : State, exec i s = .next t ∧
      t.out.frame.toList = (feedBytes s.dec (fedBytes i)).2.filterMap (fun o => o) := by
  cases hi : isPure i with
  | true =>
    rcases exec_pure i hi with ⟨o, hframe, hdrive⟩ | ⟨-, hbad, -⟩
    · exact ⟨_, hdrive s, by rw [fedBytes_of_isPure hi, State.drive_out, hframe]; rfl⟩
    · rw [hwf] at hbad
      cases hbad
  | false =>
    refine ⟨_, exec_of_not_pure hi s, ?_⟩
    rw [State.drive_out]
    cases i with
    | feed b =>
      rw [fedBytes, feedBytes_cons, feedBytes_nil, lastFrame_singleton, frame_ofFeed_feedByte hd]
      cases (feedByte s.dec b).2 <;> rfl
    | sentenceT body =>
      obtain ⟨f, hf⟩ := Option.isSome_iff_exists.mp hwf
      rw [fedBytes, lastFrame_sentence s.dec hf, frame_ofFeed f (sentenceFrame_shape _ _ hf).1,
        (feedBytes_sentence s.dec hf).1]
      simp
    | _ => cases hi

end Sys2Proof.Machine

namespace Sys2Proof.Proofs
open Sys2Proof.Machine

/-- Settles O18: a FEED that ends a sentence recovers, and `'t'` starts one. -/
theorem recoveryIsPrecise : Obligations.RecoveryIsPrecise := by
  refine ⟨fun s t b hs h hidle => ?_, fun s t h => ?_⟩
  · rw [exec_feed] at h
    cases h
    exact feedByte_of_ends hs hidle
  · cases (exec_feed_of_feedByte (feedByte_charT s.dec)).symm.trans h
    exact ⟨rfl, rfl, rfl⟩

/-- Settles O19: the moves give the position's advance, rule R27 of the next decoder its bounds. -/
theorem sentencePositionAdvancesByOne : Obligations.SentencePositionAdvancesByOne := by
  intro s t b hd h
  have ht := decoderInv_exec hd h
  refine ⟨?_, sentencePosition_le_terminator ht, sentencePosition_le_max ht⟩
  rw [exec_feed] at h
  cases h
  exact sentencePosition_feedByte hd b

/-- Settles O28: both are the bytes fed in order, with the last FEED's outputs. -/
theorem sentenceIsItsFeeds : Obligations.SentenceIsItsFeeds := fun s body rs =>
  ⟨_, exec_sentenceT body _, run_feedRequests charT body s rs⟩

/-- Settles O29: the sentence's last FEED returns its frame and leaves the decoder idle, whatever came before. -/
theorem wellFormedSentenceCompletes : Obligations.WellFormedSentenceCompletes := by
  intro s body f hf
  have hok := (sentenceFrame_shape _ _ hf).1
  refine ⟨_, exec_sentenceT body s, (feedBytes_sentence s.dec hf).2, ?_, hok, rfl⟩
  rw [State.drive_out, charT, lastFrame_sentence s.dec hf, frame_ofFeed f hok]

/-- Settles O25: by induction on the instructions, each of which answers and feeds its own bytes. -/
theorem streamingInvariance : Obligations.StreamingInvariance := by
  intro is s hd hwf
  induction is generalizing s with
  | nil => exact ⟨rfl, rfl⟩
  | cons i is ih =>
    obtain ⟨hi, his⟩ := List.forall_mem_cons.mp hwf
    obtain ⟨t, hexec, hframes⟩ := exec_frames hd hi
    obtain ⟨hdec, hrest⟩ := ih t (decoderInv_exec hd hexec) his
    rw [exec_dec hexec] at hdec hrest
    simp only [runInstrs, hexec, List.flatMap_cons, feedBytes_append, List.filterMap_append, ← hframes, ← hrest]
    refine ⟨hdec, ?_⟩
    cases hf : t.out.frame <;> simp [hf]

end Sys2Proof.Proofs
end

section
/-! PROOFS. Idle decoders cannot be told apart (rule R28): the fields that a sentence state can still read agree along any
run, whatever the other fields hold. -/

namespace Sys2Proof.Machine

/-! ### What a decoder can still read -/

/-- Two decoders agree on `st` and on the fields that `st` reads before it writes them: none in `Idle`, the identifier from
`ReadingId` on, and in `ReadingData` the length, the digit counter and the cells that have a digit already. -/
structure LiveEq (d e : Decoder) : Prop where
  st : d.st = e.st
  idCnt : d.st = .readingId → d.idCnt = e.idCnt
  idAcc : d.st ≠ .idle → d.idAcc = e.idAcc
  dlc : d.st = .readingData → d.dlc = e.dlc
  nibCnt : d.st = .readingData → d.nibCnt = e.nibCnt
  buf : d.st = .readingData → ∀ j : Fin 8, 2 * j.val < d.nibCnt.toNat → d.buf[j] = e.buf[j]

theorem LiveEq.of_idle {d e : Decoder} (hd : d.st = .idle) (he : e.st = .idle) : LiveEq d e := by
  constructor <;> simp [hd, he]

theorem LiveEq.refl (d : Decoder) : LiveEq d d :=
  ⟨rfl, fun _ => rfl, fun _ => rfl, fun _ => rfl, fun _ => rfl, fun _ _ _ => rfl⟩

theorem liveEq_recover (d e : Decoder) : LiveEq d.recover e.recover := .of_idle rfl rfl

theorem liveEq_startSentence (d e : Decoder) : LiveEq d.startSentence e.startSentence := by
  constructor <;> simp

theorem LiveEq.acceptIdDigit {d e : Decoder} (h : LiveEq d e) (hs : d.st = .readingId) (v : Nibble) :
    LiveEq (d.acceptIdDigit v) (e.acceptIdDigit v) := by
  have hcnt := h.idCnt hs
  have hacc := h.idAcc (by simp [hs])
  have hst : (d.acceptIdDigit v).st ≠ .readingData := by simp [hs, ite_eq_iff]
  exact ⟨by simp [hcnt, h.st], fun _ => by simp [hcnt], fun _ => by simp [hacc], (absurd · hst), (absurd · hst),
    (absurd · hst)⟩

theorem LiveEq.acceptLength {d e : Decoder} (h : LiveEq d e) (hs : d.st = .readingLength) (v : Nibble) :
    LiveEq (d.acceptLength v) (e.acceptLength v) := by
  have hacc := h.idAcc (by simp [hs])
  constructor <;> simp [hacc]

/-- A high digit clears the cell it goes to, so the cell a low digit is added to has agreed since then. -/
theorem LiveEq.acceptNibble {d e : Decoder} (h : LiveEq d e) (hs : d.st = .readingData) (v : Nibble) :
    LiveEq (d.acceptNibble v) (e.acceptNibble v) := by
  have hacc := h.idAcc (by simp [hs])
  have hcnt := h.nibCnt hs
  refine ⟨h.st, fun hid => ?_, fun _ => hacc, fun _ => h.dlc hs, fun _ => by simp [hcnt], fun _ j hj => ?_⟩
  · simp [hs] at hid
  rw [acceptNibble_buf_getElem, acceptNibble_buf_getElem, ← hcnt]
  have hj' : 2 * j.val < d.nibCnt.toNat + 1 := by
    rw [Decoder.acceptNibble_nibCnt] at hj
    bv_omega
  split_ifs with hcell
  · rcases Nat.mod_two_eq_zero_or_one d.nibCnt.toNat with heven | hodd
    · simp only [nibbleInto, heven, if_true]
    · rw [h.buf hs j (by omega)]
  · exact h.buf hs j (by omega)

/-- At the terminator every cell below the length has its digits. -/
theorem LiveEq.frame {d e : Decoder} (h : LiveEq d e) (hs : d.st = .readingData)
    (hn : d.nibCnt.toNat = 2 * d.dlc.toNat) : d.frame = e.frame := by
  have hbuf : d.buf.toList.take d.dlc.toNat = e.buf.toList.take d.dlc.toNat := by
    apply List.ext_getElem (by simp)
    intro j hj _
    have hj8 : j < 8 ∧ j < d.dlc.toNat := by simpa [and_comm] using hj
    simpa using h.buf hs ⟨j, hj8.1⟩ (by simp; omega)
  rw [Decoder.frame, Decoder.frame, hbuf, h.idAcc (by simp [hs]), h.dlc hs]

/-! ### One byte, many bytes, one instruction -/

/-- One byte finds the same in both decoders: it returns the same frame and leaves them alike. -/
theorem LiveEq.feedByte {d e : Decoder} (h : LiveEq d e) (b : Byte) :
    (feedByte d b).2 = (feedByte e b).2 ∧ LiveEq (feedByte d b).1 (feedByte e b).1 := by
  by_cases hb : b = charT
  · rw [hb, feedByte_charT, feedByte_charT]
    exact ⟨rfl, liveEq_startSentence d e⟩
  rcases hs : d.st with _ | _ | _ | _
  · rw [feedByte_idle hs hb, feedByte_idle (h.st ▸ hs) hb]
    exact ⟨rfl, h⟩
  · have he : e.st = .readingId := h.st ▸ hs
    by_cases hbad : ∀ v, hexVal b = some v → d.idCnt = 0 ∧ 7 < v.toNat
    · rw [feedByte_idMalformed hs hb hbad, feedByte_idMalformed he hb (h.idCnt hs ▸ hbad)]
      exact ⟨rfl, liveEq_recover d e⟩
    · push Not at hbad
      obtain ⟨v, hv, hfirst⟩ := hbad
      have hok : ¬ (d.idCnt = 0 ∧ 7 < v.toNat) := fun hx => Nat.not_lt.mpr (hfirst hx.1) hx.2
      rw [feedByte_idDigit hs hv hok, feedByte_idDigit he hv (h.idCnt hs ▸ hok)]
      exact ⟨rfl, h.acceptIdDigit hs v⟩
  · have he : e.st = .readingLength := h.st ▸ hs
    by_cases hbad : ∀ v, hexVal b = some v → 8 < v.toNat
    · rw [feedByte_lengthMalformed hs hb hbad, feedByte_lengthMalformed he hb hbad]
      exact ⟨rfl, liveEq_recover d e⟩
    · push Not at hbad
      obtain ⟨v, hv, h8⟩ := hbad
      rw [feedByte_lengthDigit hs hv h8, feedByte_lengthDigit he hv h8]
      exact ⟨rfl, h.acceptLength hs v⟩
  · have he : e.st = .readingData := h.st ▸ hs
    have hdlc := h.dlc hs
    have hcnt := h.nibCnt hs
    by_cases hbad : (∀ v, hexVal b = some v → 2 * d.dlc.toNat ≤ d.nibCnt.toNat) ∧
        (b = charCR → d.nibCnt.toNat ≠ 2 * d.dlc.toNat)
    · rw [feedByte_payloadMalformed d b hs hb hbad.1 hbad.2,
        feedByte_payloadMalformed e b he hb (hcnt ▸ hdlc ▸ hbad.1) (hcnt ▸ hdlc ▸ hbad.2)]
      exact ⟨rfl, liveEq_recover d e⟩
    · rcases not_and_or.mp hbad with hdigit | hcr
      · push Not at hdigit
        obtain ⟨v, hv, hn⟩ := hdigit
        rw [feedByte_payloadDigit d b v hs hv hn, feedByte_payloadDigit e b v he hv (hcnt ▸ hdlc ▸ hn)]
        exact ⟨rfl, h.acceptNibble hs v⟩
      · push Not at hcr
        obtain ⟨rfl, hn⟩ := hcr
        rw [feedByte_terminator hs hn, feedByte_terminator he (hcnt ▸ hdlc ▸ hn), h.frame hs hn]
        exact ⟨rfl, liveEq_recover d e⟩

theorem LiveEq.feedBytes {d e : Decoder} (h : LiveEq d e) (bytes : List Byte) :
    (feedBytes d bytes).2 = (feedBytes e bytes).2 ∧ LiveEq (feedBytes d bytes).1 (feedBytes e bytes).1 := by
  induction bytes generalizing d e with
  | nil => exact ⟨rfl, h⟩
  | cons b bs ih =>
    obtain ⟨hframe, hnext⟩ := h.feedByte b
    obtain ⟨hframes, hlast⟩ := ih hnext
    rw [feedBytes_cons, feedBytes_cons, hframe, hframes]
    exact ⟨rfl, hlast⟩

/-- Two machines the host cannot tell apart from here on: the same requests to come and decoders that agree on what they can
still read. -/
structure Alike (s t : State) : Prop where
  requests : s.requests = t.requests
  dec : LiveEq s.dec t.dec

/-- Two answers the host cannot tell apart: the same outputs and machines that are alike again, or the same refusal. -/
inductive AnswersAlike : Result → Result → Prop where
  | next {s t : State} (hout : s.out = t.out) (halike : Alike s t) : AnswersAlike (.next s) (.next t)
  | refused (why : Refusal) : AnswersAlike (.refused why) (.refused why)

theorem Alike.withRequests {s t : State} (h : Alike s t) (rs : List Request) :
    Alike (s.withRequests rs) (t.withRequests rs) := ⟨rfl, h.dec⟩

theorem Alike.exec {s t : State} (h : Alike s t) (i : Instr) : AnswersAlike (exec i s) (exec i t) := by
  cases hi : isPure i with
  | true =>
    rcases exec_pure i hi with ⟨o, -, hdrive⟩ | ⟨why, -, hrefuse⟩
    · rw [hdrive, hdrive]
      exact .next rfl ⟨h.requests, h.dec⟩
    · rw [hrefuse, hrefuse]
      exact .refused why
  | false =>
    obtain ⟨hframes, hdec⟩ := h.dec.feedBytes (fedBytes i)
    rw [exec_of_not_pure hi, exec_of_not_pure hi, hframes]
    exact .next rfl ⟨h.requests, hdec⟩

theorem Alike.runRequest {s t : State} (h : Alike s t) (r : Request) :
    AnswersAlike (runRequest r s) (runRequest r t) := by
  cases hrst : r.ports.rst with
  | true =>
    rw [runRequest_of_rst hrst, runRequest_of_rst hrst]
    exact .next rfl ⟨h.requests, .refl _⟩
  | false =>
    rcases hdec : decode r with why | i
    · rw [runRequest_of_error hrst hdec, runRequest_of_error hrst hdec]
      exact .refused _
    · rw [runRequest_of_decode hrst hdec, runRequest_of_decode hrst hdec]
      exact h.exec i

theorem Alike.step {s t : State} (h : Alike s t) : AnswersAlike (step s) (step t) := by
  rcases hreq : s.requests with _ | ⟨r, rs⟩
  · rw [step_nil hreq, step_nil (h.requests ▸ hreq)]
    exact h.exec .nop
  · rw [step_cons hreq, step_cons (h.requests ▸ hreq)]
    exact (h.withRequests rs).runRequest r

theorem Alike.seenBySteps {s t : State} (h : Alike s t) (n : Nat) : seenBySteps n s = seenBySteps n t := by
  induction n generalizing s t with
  | zero => rfl
  | succ n ih =>
    have hstep := h.step
    simp only [Machine.seenBySteps]
    generalize Machine.step s = a, Machine.step t = b at hstep ⊢
    cases hstep with
    | next hout halike => simp only [hout, ih halike]
    | refused why => rfl

end Sys2Proof.Machine

namespace Sys2Proof.Proofs
open Sys2Proof.Machine

/-- Settles O26: an idle decoder reads none of its other fields, and machines that are alike stay so. -/
theorem idleStatesAreIndistinguishable : Obligations.IdleStatesAreIndistinguishable := fun _ _ hs ht hreq =>
  (Alike.mk hreq (.of_idle hs ht)).seenBySteps

end Sys2Proof.Proofs
end

section
/-! PROOFS. The encodings (rules R48, R66, R75, R76 and R65): what each encoding space decodes to and why it rejects, and
that decoding and encoding undo each other. -/

namespace Sys2Proof.Machine

/-! ### Sentences: at most one carriage return, last (rules R12 and R66) -/

theorem crOnlyLast_cons_of_ne {b : Byte} (hb : b ≠ charCR) (bs : List Byte) : crOnlyLast (b :: bs) = crOnlyLast bs :=
  if_neg hb

theorem crOnlyLast_charCR_cons (bs : List Byte) : crOnlyLast (charCR :: bs) = bs.isEmpty := if_pos rfl

theorem crOnlyLast_eq_false_iff (text : List Byte) :
    crOnlyLast text = false ↔ ∃ pre post : List Byte, text = pre ++ charCR :: post ∧ post ≠ [] := by
  induction text with
  | nil => simp [crOnlyLast]
  | cons b bs ih =>
    by_cases hb : b = charCR
    · subst hb
      rw [crOnlyLast_charCR_cons, List.isEmpty_eq_false_iff]
      refine ⟨fun hne => ⟨[], bs, rfl, hne⟩, ?_⟩
      rintro ⟨pre, post, heq, hne⟩
      have hlen := congrArg List.length heq
      have hpost := List.length_pos_iff.mpr hne
      simp only [List.length_append, List.length_cons] at hlen
      exact List.length_pos_iff.mp (by omega)
    · rw [crOnlyLast_cons_of_ne hb, ih]
      constructor
      · rintro ⟨pre, post, rfl, hne⟩
        exact ⟨b :: pre, post, rfl, hne⟩
      · rintro ⟨pre, post, heq, hne⟩
        rcases List.cons_eq_append_iff.mp heq with ⟨-, hcr⟩ | ⟨pre, rfl, hbs⟩
        · exact absurd (List.cons.inj hcr).1.symm hb
        · exact ⟨pre, post, hbs, hne⟩

theorem decodeText_eq_ok_iff (text : List Byte) (i : Instr) :
    decodeText text = .ok i ↔ ∃ body, text = charT :: body ∧ crOnlyLast body = true ∧ i = .sentenceT body := by
  cases text with
  | nil => simp [decodeText]
  | cons b body =>
    by_cases hb : b = charT
    · cases hcr : crOnlyLast body <;> simp [decodeText, hb, hcr, @eq_comm _ i]
    · simp [decodeText, hb]

theorem decodeText_eq_error_iff (text : List Byte) (e : DecodeError) :
    decodeText text = .error e ↔
      (e = .notASentence ∧ text.head? ≠ some charT) ∨
      (e = .bytesAfterTerminator ∧ ∃ pre post : List Byte, text = charT :: (pre ++ charCR :: post) ∧ post ≠ []) := by
  cases text with
  | nil => simp [decodeText, @eq_comm _ e]
  | cons b body =>
    by_cases hb : b = charT
    · subst hb
      simp only [List.cons.injEq, true_and, ← crOnlyLast_eq_false_iff]
      cases hcr : crOnlyLast body <;> simp [decodeText, hcr, @eq_comm _ e]
    · simp [decodeText, hb, @eq_comm _ e]

/-- A text the grammar reads as a payload has its one carriage return last (rule R66). -/
theorem crOnlyLast_of_payloadText {n : Nat} {text p : List Byte} (h : payloadText n text = some p) :
    crOnlyLast text = true := by
  induction n generalizing text p with
  | zero =>
    match text with
    | [] => rfl
    | [c] =>
      by_cases hc : c = charCR
      · rw [hc, crOnlyLast_charCR_cons, List.isEmpty_nil]
      · rw [crOnlyLast_cons_of_ne hc, crOnlyLast]
    | _ :: _ :: _ => simp [payloadText] at h
  | succ n ih =>
    match text with
    | [] => rfl
    | [_] => simp [payloadText] at h
    | hi :: lo :: rest =>
      simp only [payloadText] at h
      split at h
      next hhi hlo hrest =>
        rw [crOnlyLast_cons_of_ne (ne_charCR_of_hexVal hhi), crOnlyLast_cons_of_ne (ne_charCR_of_hexVal hlo), ih hrest]
      next => cases h

theorem crOnlyLast_of_lengthText {id : Ident} {text : List Byte} {f : CanFrame} (h : lengthText id text = some f) :
    crOnlyLast text = true := by
  cases text with
  | nil => rfl
  | cons c rest =>
    obtain ⟨n, hn, hrest⟩ := Option.bind_eq_some_iff.mp h
    split_ifs at hrest
    obtain ⟨p, hp, -⟩ := Option.map_eq_some_iff.mp hrest
    rw [crOnlyLast_cons_of_ne (ne_charCR_of_hexVal hn), crOnlyLast_of_payloadText hp]

theorem crOnlyLast_of_identText {n : Nat} {acc : Ident} {text : List Byte} {f : CanFrame}
    (h : identText n acc text = some f) : crOnlyLast text = true := by
  induction n generalizing acc text with
  | zero => exact crOnlyLast_of_lengthText h
  | succ n ih =>
    cases text with
    | nil => rfl
    | cons c rest =>
      obtain ⟨v, hv, hrest⟩ := Option.bind_eq_some_iff.mp h
      split_ifs at hrest
      rw [crOnlyLast_cons_of_ne (ne_charCR_of_hexVal hv), ih hrest]

theorem decodeText_of_sentenceBodyOk {body : List Byte} (h : sentenceBodyOk body = true) :
    decodeText (charT :: body) = .ok (.sentenceT body) := by
  obtain ⟨f, hf⟩ := Option.isSome_iff_exists.mp h
  rw [sentenceFrame_charT_cons] at hf
  exact (decodeText_eq_ok_iff _ _).mpr ⟨body, rfl, crOnlyLast_of_identText hf, rfl⟩

/-! ### Command payloads: a code and the bytes rule R75 wants zero -/

theorem toNat_byteAt {w : Nat} (x : BitVec w) (k : Nat) : (byteAt x k).toNat = x.toNat / 2 ^ (8 * k) % 2 ^ 8 := by
  rw [byteAt, BitVec.extractLsb'_toNat, Nat.shiftRight_eq_div_pow]

/-- The speed's field is the upper half of the payload. -/
theorem getU32_four_eq_extractLsb' (data : Bus) : getU32 data 4 = data.extractLsb' 32 32 := by
  apply BitVec.eq_of_toNat_eq
  rw [toNat_getU32, BitVec.extractLsb'_toNat, Nat.shiftRight_eq_div_pow]
  simp only [toNat_byteAt]
  norm_num
  omega

theorem getU32_speedPayload (speed : Word32) : getU32 (speedPayload speed) 4 = speed := by
  rw [getU32_four_eq_extractLsb', speedPayload_eq_append]
  exact BitVec.extractLsb'_append_eq_left

theorem byteAt_getU32_four (data : Bus) (k : Nat) (hk : k < 4) : byteAt (getU32 data 4) k = byteAt data (k + 4) := by
  apply BitVec.eq_of_toNat_eq
  rw [getU32_four_eq_extractLsb', toNat_byteAt, toNat_byteAt, BitVec.extractLsb'_toNat, Nat.shiftRight_eq_div_pow]
  interval_cases k <;> norm_num <;> omega

theorem eq_speedPayload_iff (data : Bus) :
    data = speedPayload (getU32 data 4) ↔
      byteAt data 0 = 0x20 ∧ ∀ k : Nat, 1 ≤ k → k ≤ 3 → byteAt data k = 0 := by
  have hlow : ∀ speed : Word32, ∀ k : Nat, k < 4 → byteAt (speedPayload speed) k = byteAt 0x20#32 k := fun speed k hk => by
    rw [speedPayload_eq_append, byteAt_append, if_pos hk]
  constructor
  · intro h
    rw [h]
    refine ⟨hlow _ 0 (by omega), fun k h1 h3 => ?_⟩
    rw [hlow _ k (by omega)]
    interval_cases k <;> rfl
  · rintro ⟨hcode, hfill⟩
    refine bus_ext _ _ fun k hk => ?_
    by_cases hk4 : k < 4
    · rw [hlow _ k hk4]
      rcases Nat.eq_zero_or_pos k with rfl | h1
      · exact hcode
      · rw [hfill k h1 (by omega)]
        interval_cases k <;> rfl
    · rw [speedPayload_eq_append, byteAt_append, if_neg hk4, byteAt_getU32_four _ _ (by omega),
        Nat.sub_add_cancel (Nat.not_lt.mp hk4)]

/-- The payloads with a code and nothing else. -/
theorem eq_putU8_zero8_iff (data : Bus) (code : Byte) :
    data = putU8 zero8 0 code ↔ byteAt data 0 = code ∧ ∀ k : Nat, 1 ≤ k → k ≤ 7 → byteAt data k = 0 := by
  have hbyte : ∀ k : Fin 8, byteAt (putU8 zero8 0 code) k = if k = 0 then code else 0 := fun k => by
    rw [byteAt_putU8, byteAt_zero8]
  constructor
  · intro h
    rw [h]
    refine ⟨hbyte 0, fun k h1 h7 => ?_⟩
    rw [hbyte ⟨k, by omega⟩, if_neg (by simp [Fin.ext_iff]; omega)]
  · rintro ⟨hcode, hfill⟩
    refine bus_ext _ _ fun k hk => ?_
    rw [hbyte ⟨k, hk⟩]
    rcases Nat.eq_zero_or_pos k with rfl | h1
    · rw [hcode]
      exact (if_pos rfl).symm
    · rw [hfill k h1 (by omega), if_neg (by simp [Fin.ext_iff]; omega)]

theorem eq_stopPayload_iff (data : Bus) :
    data = stopPayload ↔ byteAt data 0 = 0x04 ∧ ∀ k : Nat, 1 ≤ k → k ≤ 7 → byteAt data k = 0 :=
  eq_putU8_zero8_iff data 0x04

theorem eq_resetPayload_iff (data : Bus) :
    data = resetPayload ↔ byteAt data 0 = 0x01 ∧ ∀ k : Nat, 1 ≤ k → k ≤ 7 → byteAt data k = 0 :=
  eq_putU8_zero8_iff data 0x01

/-! What a payload decodes to, by its code. -/

theorem decodePayload_of_speed {data : Bus} (hcode : byteAt data 0 = 0x20) (node : Ident) :
    decodePayload node data = if data = speedPayload (getU32 data 4)
      then .ok (.payloadSpeedControl node (getU32 data 4)) else .error .nonZeroFill :=
  if_pos hcode

theorem decodePayload_of_stop {data : Bus} (hcode : byteAt data 0 = 0x04) (node : Ident) :
    decodePayload node data = if data = stopPayload then .ok (.payloadStop node) else .error .nonZeroFill := by
  rw [decodePayload, hcode]
  rfl

theorem decodePayload_of_reset {data : Bus} (hcode : byteAt data 0 = 0x01) (node : Ident) :
    decodePayload node data = if data = resetPayload then .ok (.payloadReset node) else .error .nonZeroFill := by
  rw [decodePayload, hcode]
  rfl

theorem decodePayload_of_unknown {data : Bus} (hcode : byteAt data 0 ∉ [0x20, 0x04, 0x01]) (node : Ident) :
    decodePayload node data = .error .unknownCommandCode := by
  simp only [List.mem_cons, List.not_mem_nil, or_false, not_or] at hcode
  obtain ⟨hspeed, hstop, hreset⟩ := hcode
  simp only [decodePayload, Config.codeSpeed, Config.codeStop, Config.codeReset, hspeed, hstop, hreset, if_false]

theorem commandCode_cases (b : Byte) : b = 0x20 ∨ b = 0x04 ∨ b = 0x01 ∨ b ∉ [0x20, 0x04, 0x01] := by
  simp only [List.mem_cons, List.not_mem_nil, or_false]
  tauto

/-- A layout's test rejects for the one reason that it fails. -/
theorem ite_ok_eq_error_iff {P : Prop} [Decidable P] (i : Instr) (why e : DecodeError) :
    (if P then Except.ok i else .error why) = .error e ↔ e = why ∧ ¬ P := by
  by_cases h : P <;> simp [h, @eq_comm _ e]

theorem decodePayload_eq_error_iff (node : Ident) (data : Bus) (e : DecodeError) :
    decodePayload node data = .error e ↔
      (e = .unknownCommandCode ∧ byteAt data 0 ∉ [0x20, 0x04, 0x01]) ∨
      (e = .nonZeroFill ∧
        ((byteAt data 0 = 0x20 ∧ ∃ k : Nat, 1 ≤ k ∧ k ≤ 3 ∧ byteAt data k ≠ 0) ∨
          (byteAt data 0 ∈ [0x04, 0x01] ∧ ∃ k : Nat, 1 ≤ k ∧ k ≤ 7 ∧ byteAt data k ≠ 0))) := by
  rcases commandCode_cases (byteAt data 0) with hcode | hcode | hcode | hcode
  · rw [decodePayload_of_speed hcode, ite_ok_eq_error_iff, eq_speedPayload_iff]
    simp [hcode]
  · rw [decodePayload_of_stop hcode, ite_ok_eq_error_iff, eq_stopPayload_iff]
    simp [hcode]
  · rw [decodePayload_of_reset hcode, ite_ok_eq_error_iff, eq_resetPayload_iff]
    simp [hcode]
  · have hne : byteAt data 0 ≠ 0x20 ∧ byteAt data 0 ∉ [0x04, 0x01] := by simpa using hcode
    rw [decodePayload_of_unknown hcode]
    simp only [Except.error.injEq, hcode, hne, not_false_eq_true, and_true, false_and, or_self, and_false, or_false,
      @eq_comm _ e]

/-- A payload that decodes is the payload its instruction is rendered from. -/
theorem encode_of_decodePayload {node : Ident} {data : Bus} {i : Instr} (h : decodePayload node data = .ok i) :
    encode i = { format := .commandPayload, ports := { nodeIn := node, dataIn := data } } := by
  rcases commandCode_cases (byteAt data 0) with hcode | hcode | hcode | hcode
  · rw [decodePayload_of_speed hcode] at h
    split_ifs at h with hdata
    cases h
    rw [encode, ← hdata]
  · rw [decodePayload_of_stop hcode] at h
    split_ifs at h with hdata
    cases h
    rw [encode, ← hdata]
  · rw [decodePayload_of_reset hcode] at h
    split_ifs at h with hdata
    cases h
    rw [encode, ← hdata]
  · rw [decodePayload_of_unknown hcode] at h
    cases h

theorem decodePayload_speedPayload (node : Ident) (speed : Word32) :
    decodePayload node (speedPayload speed) = .ok (.payloadSpeedControl node speed) := by
  have hdata := getU32_speedPayload speed
  have hlayout := (eq_speedPayload_iff (speedPayload speed)).mp (by rw [hdata])
  rw [decodePayload_of_speed hlayout.1, hdata, if_pos rfl]

theorem decodePayload_stopPayload (node : Ident) : decodePayload node stopPayload = .ok (.payloadStop node) := by
  rw [decodePayload_of_stop (by decide), if_pos rfl]

theorem decodePayload_resetPayload (node : Ident) : decodePayload node resetPayload = .ok (.payloadReset node) := by
  rw [decodePayload_of_reset (by decide), if_pos rfl]

/-! ### Identifiers: a class and a node (rules R48 and R76) -/

theorem identOf_nodeField {id cls : Ident} (hcls : classField id = cls) : identOf cls (nodeField id) = id := by
  rw [← hcls, identOf, composeIdent_nodeField_classField]

theorem toNat_node_le (node : BitVec 7) : (node.setWidth 11).toNat ≤ 0x7F := by
  have hnode : node.toNat < 2 ^ 7 := node.isLt
  rw [BitVec.toNat_setWidth_of_le (by omega)]
  omega

theorem nodeField_identOf {cls : Ident} (hcls : cls.toNat % 0x80 = 0) (node : BitVec 7) :
    nodeField (identOf cls node) = node := by
  apply BitVec.eq_of_toNat_eq
  rw [identOf, toNat_nodeField_composeIdent (toNat_node_le node) hcls, BitVec.toNat_setWidth_of_le (by omega)]

theorem classField_identOf {cls : Ident} (hcls : cls.toNat % 0x80 = 0) (node : BitVec 7) :
    classField (identOf cls node) = cls :=
  classField_composeIdent (toNat_node_le node) hcls

/-- The region is the class's, whatever the node. -/
theorem identRegion_identOf {cls : Ident} (hcls : cls.toNat % 0x80 = 0) (node : BitVec 7) :
    identRegion (identOf cls node) = identRegion cls := by
  have hself : classField cls = cls := by
    apply BitVec.eq_of_toNat_eq
    rw [toNat_classField, hcls, Nat.sub_zero]
  simp only [identRegion, classField_identOf hcls, hself]

/-- The frame that an identifier's instruction is encoded to: its identifier and payload, and its length but for COMMAND. -/
theorem encode_decodeIdent (id : Ident) (len : Len) (data : Bus) :
    (encode (decodeIdent id len data)).ports.idIn = id ∧ (encode (decodeIdent id len data)).ports.dataIn = data ∧
      (classField id ≠ Config.classCommand → (encode (decodeIdent id len data)).ports.lenIn = len) := by
  unfold decodeIdent identRegion
  dsimp only
  split_ifs with htelem hcmd h280 h380 h480
  · exact ⟨identOf_nodeField htelem, rfl, fun _ => rfl⟩
  · exact ⟨identOf_nodeField hcmd, rfl, fun hne => absurd hcmd hne⟩
  · exact ⟨identOf_nodeField h280, rfl, fun _ => rfl⟩
  · exact ⟨identOf_nodeField h380, rfl, fun _ => rfl⟩
  · exact ⟨identOf_nodeField h480, rfl, fun _ => rfl⟩
  · exact ⟨rfl, rfl, fun _ => rfl⟩

/-- The command identifiers are 0x200 to 0x27F. -/
theorem classField_ne_command {id : Ident} (h : id.toNat < 0x200 ∨ 0x27F < id.toNat) :
    classField id ≠ Config.classCommand := by
  have hcls : Config.classCommand.toNat = 0x200 := rfl
  rw [Ne, classField_eq_iff, hcls]
  omega

/-! ### Operations: the code and the ports it reads (rules R61 and R64) -/

/-- Two sets of ports are one request of an operation: the same code, and the same on each port that rule R61 says the
operation reads. -/
abbrev SameOperands (p q : Ports) : Prop :=
  p.op = q.op ∧
  (q.op = 0x1 → p.inByte = q.inByte) ∧
  (q.op ∈ ([0x2, 0x4, 0x5, 0x7] : List (BitVec 4)) → p.idIn = q.idIn) ∧
  (q.op ∈ ([0x2, 0x7] : List (BitVec 4)) → p.lenIn = q.lenIn ∧ p.dataIn = q.dataIn) ∧
  (q.op ∈ ([0x3, 0x8, 0x9, 0xA] : List (BitVec 4)) → p.nodeIn = q.nodeIn) ∧
  (q.op = 0x3 → p.clsIn = q.clsIn) ∧
  (q.op = 0x6 → p.hIn = q.hIn) ∧
  (q.op = 0x8 → p.speedIn = q.speedIn)

/-- A reserved code is 0xC and its low two bits. -/
theorem reservedCode_eq {op : BitVec 4} (h : 0xC ≤ op) : 0xC + (op.setWidth 2).setWidth 4 = op := by
  revert op
  decide

theorem opCode_cases (op : BitVec 4) :
    op = 0x0 ∨ op = 0x1 ∨ op = 0x2 ∨ op = 0x3 ∨ op = 0x4 ∨ op = 0x5 ∨ op = 0x6 ∨ op = 0x7 ∨ op = 0x8 ∨ op = 0x9 ∨
      op = 0xA ∨ op = 0xB ∨ 0xC ≤ op := by
  revert op
  decide

theorem encode_decodeOp_format (p : Ports) : (encode (decodeOp p)).format = .op := by
  unfold decodeOp
  split <;> rfl

/-- With a code below 0xC both maps compute; a reserved one reads no port. -/
theorem sameOperands_encode_decodeOp (p : Ports) : SameOperands (encode (decodeOp p)).ports p := by
  obtain ⟨op, inByte, idIn, lenIn, dataIn, nodeIn, clsIn, hIn, speedIn, rst⟩ := p
  rcases opCode_cases op with rfl | rfl | rfl | rfl | rfl | rfl | rfl | rfl | rfl | rfl | rfl | rfl | h
  pick_goal 13
  · have hread : op ∉ ([0x1, 0x2, 0x3, 0x4, 0x5, 0x6, 0x7, 0x8, 0x9, 0xA] : List (BitVec 4)) := by
      revert op
      decide
    rw [decodeOp_of_reserved h]
    simp only [List.mem_cons, List.not_mem_nil, or_false, not_or] at hread
    simp only [encode, reservedCode_eq h, SameOperands, List.mem_cons, List.not_mem_nil, hread, or_self, false_imp_iff,
      and_self]
  all_goals simp [SameOperands, decodeOp, encode]

end Sys2Proof.Machine

namespace Sys2Proof.Proofs
open Sys2Proof.Machine

/-- Settles O8: the decoder computes on each of the seven words. -/
theorem specWordsDecode : Obligations.SpecWordsDecode := ⟨rfl, rfl, rfl, rfl, rfl, rfl, rfl⟩

/-- Settles O4: a text and a payload are rejected for the reasons of their spaces, an operation and an identifier never. -/
theorem onlyMalformedTextOrPayloadIsUndecodable : Obligations.OnlyMalformedTextOrPayloadIsUndecodable := by
  refine ⟨fun r e => ?_, fun s r rs e hreq hrst hdec => (step_cons hreq).trans (runRequest_of_error hrst hdec _)⟩
  obtain ⟨format, ports, text⟩ := r
  cases format with
  | op => simp [decode]
  | slcanSentence => exact (decodeText_eq_error_iff text e).trans (by simp [charT, charCR])
  | commandPayload => exact (decodePayload_eq_error_iff ports.nodeIn ports.dataIn e).trans (by simp)
  | identifierClass => simp [decode]

/-- Settles O7: each encoding space gives back the input it is read from. -/
theorem encodeOfDecode : Obligations.EncodeOfDecode := by
  intro r i h
  obtain ⟨format, ports, text⟩ := r
  cases format with
  | op =>
    cases h
    exact ⟨fun _ => encode_decodeOp_format ports, nofun, nofun, nofun, fun _ => sameOperands_encode_decodeOp ports⟩
  | slcanSentence =>
    obtain ⟨body, rfl, -, rfl⟩ := (decodeText_eq_ok_iff text i).mp h
    simp [encode]
  | commandPayload => simp [encode_of_decodePayload h]
  | identifierClass =>
    cases h
    obtain ⟨hid, hdata, hlen⟩ := encode_decodeIdent ports.idIn ports.lenIn ports.dataIn
    simpa [hid, hdata] using fun hrange => hlen (classField_ne_command hrange)

/-- Settles O6: each row's encoding is read back by the decoder of its space. -/
theorem decodeOfEncode : Obligations.DecodeOfEncode := by
  intro i hwf
  cases i with
  | nop | feed | encode | compose | nodeOf | classOf | f16to32 | telemDecode | cmdSpeed | cmdStop | cmdReset
  | reservedB => rfl
  | reservedCToF low =>
    revert low
    decide
  | sentenceT body => exact decodeText_of_sentenceBodyOk hwf
  | payloadSpeedControl node speed => exact decodePayload_speedPayload node speed
  | payloadStop node => exact decodePayload_stopPayload node
  | payloadReset node => exact decodePayload_resetPayload node
  | classTelemetryPrimary node | classCommand node | classReserved280 node | classReserved380 node
  | classReserved480 node =>
    simp only [Sys2Proof.encode, decode, decodeIdent]
    rw [identRegion_identOf (by decide), nodeField_identOf (by decide)]
    rfl

end Sys2Proof.Proofs
end

section
/-! PROOFS. The Float16Codec (rules R174, R175, R177 and R178): the value of F16TO32 on normal numbers, subnormals and NaNs,
the fields of the result, that a finite value is kept, and that the conversion can be undone. -/

namespace Sys2Proof.Machine

/-! ### The value of F16TO32, by the fields of its input -/

/-- An exponent of 1 to 30 is rebiased (rule R174). -/
theorem f16To32_of_normal {h : BitVec 16} (hlo : 1 ≤ (h.extractLsb' 10 5).toNat)
    (hhi : (h.extractLsb' 10 5).toNat ≤ 30) :
    f16To32 h = h.extractLsb' 15 1 ++ BitVec.ofNat 8 ((h.extractLsb' 10 5).toNat + 112) ++
      (h.extractLsb' 0 10 ++ 0#13) := by
  have h0 : h.extractLsb' 10 5 ≠ 0 := by bv_omega
  have h31 : h.extractLsb' 10 5 ≠ 31 := by bv_omega
  rw [f16To32, f16To32With, if_neg fun hzero => h0 hzero.1, if_neg h0, if_neg fun hinf => h31 hinf.1, if_neg h31]

/-- A subnormal is rebased at its leading 1 (rule R175). -/
theorem f16To32_of_subnormal {h : BitVec 16} (he : h.extractLsb' 10 5 = 0) (hm : h.extractLsb' 0 10 ≠ 0) :
    f16To32 h = h.extractLsb' 15 1 ++ BitVec.ofNat 8 (leadingOne (h.extractLsb' 0 10) + 103) ++
      BitVec.ofNat 23 (((h.extractLsb' 0 10).toNat - 2 ^ leadingOne (h.extractLsb' 0 10)) *
        2 ^ (23 - leadingOne (h.extractLsb' 0 10))) := by
  rw [f16To32, f16To32With, if_neg fun hzero => hm hzero.2, if_pos he]

/-- A NaN keeps its payload, since this hardware does not quiet it (rule R177). -/
theorem f16To32_of_nan {h : BitVec 16} (he : h.extractLsb' 10 5 = 31) (hm : h.extractLsb' 0 10 ≠ 0) :
    f16To32 h = h.extractLsb' 15 1 ++ 255#8 ++ (h.extractLsb' 0 10 ++ 0#13) := by
  have h0 : h.extractLsb' 10 5 ≠ 0 := by rw [he]; decide
  rw [f16To32, f16To32With, if_neg fun hzero => h0 hzero.1, if_neg h0, if_neg fun hinf => hm hinf.2, if_pos he]
  rfl

/-- An exponent of 31 becomes 255, over an infinity's mantissa of 0 and a NaN's payload alike (rules R176 and R177). -/
theorem f16To32_of_infinity_or_nan {h : BitVec 16} (he : h.extractLsb' 10 5 = 31) :
    f16To32 h = h.extractLsb' 15 1 ++ 255#8 ++ (h.extractLsb' 0 10 ++ 0#13) := by
  by_cases hm : h.extractLsb' 0 10 = 0
  · rw [f16To32_of_infinity he hm, hm]
    rfl
  · exact f16To32_of_nan he hm

/-! ### The leading 1 (rule R170) -/

/-- Searched from a place that the number does not reach past, the leading 1 is the exponent of its power of 2. -/
theorem leadingOneFrom_eq {m : BitVec 10} {p k : Nat} (hlo : 2 ^ p ≤ m.toNat) (hhi : m.toNat < 2 ^ (p + 1))
    (hk : p ≤ k) : leadingOneFrom m k = p := by
  induction k with
  | zero => rw [leadingOneFrom, Nat.le_zero.mp hk]
  | succ k ih =>
    rcases Nat.eq_or_lt_of_le hk with rfl | hlt
    · have hbit : m.getLsbD (k + 1) = true := Nat.testBit_of_two_pow_le_and_two_pow_add_one_gt hlo hhi
      rw [leadingOneFrom, if_pos hbit]
    · have hsmall : m.toNat < 2 ^ (k + 1) := Nat.lt_of_lt_of_le hhi (Nat.pow_le_pow_right (by omega) hlt)
      have hbit : ¬ m.getLsbD (k + 1) = true := by simp [BitVec.getLsbD, Nat.testBit_lt_two_pow hsmall]
      rw [leadingOneFrom, if_neg hbit, ih (Nat.le_of_lt_succ hlt)]

theorem leadingOne_eq {m : BitVec 10} {p : Nat} (hlo : 2 ^ p ≤ m.toNat) (hhi : m.toNat < 2 ^ (p + 1)) :
    leadingOne m = p := by
  have hp : p < 10 := (Nat.pow_lt_pow_iff_right (by omega)).mp (Nat.lt_of_le_of_lt hlo m.isLt)
  exact leadingOneFrom_eq hlo hhi (by omega)

/-- A mantissa that is not 0 lies between the power of 2 at its leading 1 and the next. -/
theorem leadingOne_spec {m : BitVec 10} (hm : m ≠ 0) :
    2 ^ leadingOne m ≤ m.toNat ∧ m.toNat < 2 ^ (leadingOne m + 1) ∧ leadingOne m ≤ 9 := by
  have hpos : m.toNat ≠ 0 := fun h => hm (BitVec.eq_of_toNat_eq h)
  have hlo := Nat.pow_log_le_self 2 hpos
  have hhi := Nat.lt_pow_succ_log_self (b := 2) (by omega) m.toNat
  have hp : Nat.log 2 m.toNat < 10 := (Nat.pow_lt_pow_iff_right (by omega)).mp (Nat.lt_of_le_of_lt hlo m.isLt)
  rw [leadingOne_eq hlo hhi]
  exact ⟨hlo, hhi, Nat.le_of_lt_succ hp⟩

/-- A number with its leading 1 at `p`, moved up so that the 1 is the hidden one of a fraction of 23 bits. -/
theorem hiddenOne_add_fraction {m p : Nat} (hlo : 2 ^ p ≤ m) (hp : p ≤ 9) :
    2 ^ 23 + (m - 2 ^ p) * 2 ^ (23 - p) = m * 2 ^ (23 - p) := by
  have hsplit : 2 ^ 23 = 2 ^ p * 2 ^ (23 - p) := by rw [← Nat.pow_add, Nat.add_sub_of_le (by omega)]
  rw [hsplit, ← Nat.add_mul, Nat.add_sub_of_le hlo]

/-- What is left of it fits the fraction. -/
theorem toNat_subnormalFraction {m p : Nat} (hlo : 2 ^ p ≤ m) (hhi : m < 2 ^ (p + 1)) (hp : p ≤ 9) :
    (BitVec.ofNat 23 ((m - 2 ^ p) * 2 ^ (23 - p))).toNat = (m - 2 ^ p) * 2 ^ (23 - p) := by
  have hlt : m * 2 ^ (23 - p) < 2 ^ (p + 1) * 2 ^ (23 - p) := Nat.mul_lt_mul_of_pos_right hhi (Nat.two_pow_pos _)
  rw [← Nat.pow_add, show p + 1 + (23 - p) = 24 by omega, ← hiddenOne_add_fraction hlo hp] at hlt
  rw [BitVec.toNat_ofNat, Nat.mod_eq_of_lt (by omega)]

/-! ### The fields of a binary32 and of a binary16 -/

section Fields
variable (sgn : BitVec 1) (e : BitVec 8) (f : BitVec 23)

theorem single_sign : (sgn ++ e ++ f).extractLsb' 31 1 = sgn := by
  rw [BitVec.extractLsb'_append_eq_of_le (by omega)]
  exact BitVec.extractLsb'_append_eq_left

theorem single_exponent : (sgn ++ e ++ f).extractLsb' 23 8 = e := by
  rw [BitVec.extractLsb'_append_eq_of_le (by omega)]
  exact BitVec.extractLsb'_append_eq_right

theorem single_fraction : (sgn ++ e ++ f).extractLsb' 0 23 = f := BitVec.extractLsb'_append_eq_right

theorem single_msb : (sgn ++ e ++ f).msb = sgn.msb := by
  rw [BitVec.msb_append, BitVec.msb_append]
  rfl

end Fields

theorem msb_half_sign (h : BitVec 16) : (h.extractLsb' 15 1).msb = h.msb := by
  simp [BitVec.msb_eq_getLsbD_last]

theorem half_fields (h : BitVec 16) : h.extractLsb' 15 1 ++ h.extractLsb' 10 5 ++ h.extractLsb' 0 10 = h := by
  apply BitVec.eq_of_toNat_eq
  rw [toNat_append_eq_add, toNat_append_eq_add]
  simp only [BitVec.extractLsb'_toNat, Nat.shiftRight_eq_div_pow]
  omega

/-- A zero's word, its exponent and fraction told apart. -/
theorem sign_append_zero (sgn : BitVec 1) : sgn ++ 0#31 = sgn ++ 0#8 ++ 0#23 := by
  revert sgn
  decide

/-- A mantissa at the top of the fraction (rule R174). -/
theorem toNat_mantissa_append (m : BitVec 10) : (m ++ 0#13).toNat = 2 ^ 13 * m.toNat := by
  rw [toNat_append_eq_add, BitVec.toNat_ofNat, Nat.zero_mod, Nat.zero_add]

theorem extractLsb'_mantissa_append (m : BitVec 10) : (m ++ 0#13).extractLsb' 13 10 = m :=
  BitVec.extractLsb'_append_eq_left

/-! ### Values (rules R171, R172 and R178) -/

/-- The magnitude of a finite binary16 (rule R171). -/
def halfMagnitude (e m : Nat) : Rat :=
  if e = 0 then (m : Rat) / 2 ^ 24 else ((1024 + m : Nat) : Rat) * 2 ^ e / 2 ^ 25

/-- The magnitude of a finite binary32 (rule R172). -/
def singleMagnitude (e m : Nat) : Rat :=
  if e = 0 then (m : Rat) / 2 ^ 149 else ((2 ^ 23 + m : Nat) : Rat) * 2 ^ e / 2 ^ 150

theorem halfValue_eq (h : BitVec 16) :
    halfValue h = if h.msb then -halfMagnitude (h.extractLsb' 10 5).toNat (h.extractLsb' 0 10).toNat
      else halfMagnitude (h.extractLsb' 10 5).toNat (h.extractLsb' 0 10).toNat := rfl

theorem singleValue_eq (f : Word32) :
    singleValue f = if f.msb then -singleMagnitude (f.extractLsb' 23 8).toNat (f.extractLsb' 0 23).toNat
      else singleMagnitude (f.extractLsb' 23 8).toNat (f.extractLsb' 0 23).toNat := rfl

/-- Rule R174 keeps the magnitude: `2^13 × 2^112` is what the two formats' scales differ by. -/
theorem singleMagnitude_of_normal {e : Nat} (he : 1 ≤ e) (m : Nat) :
    singleMagnitude (e + 112) (2 ^ 13 * m) = halfMagnitude e m := by
  rw [singleMagnitude, halfMagnitude, if_neg (by omega), if_neg (by omega), pow_add]
  push_cast
  ring

/-- Rule R175 keeps the magnitude: `2^(23-p) × 2^(p+103)` does not depend on the leading 1's place. -/
theorem singleMagnitude_of_subnormal {m p : Nat} (hlo : 2 ^ p ≤ m) (hp : p ≤ 9) :
    singleMagnitude (p + 103) ((m - 2 ^ p) * 2 ^ (23 - p)) = halfMagnitude 0 m := by
  have hscale : (2 : Rat) ^ (23 - p) * 2 ^ (p + 103) = 2 ^ 126 := by
    rw [← pow_add, show 23 - p + (p + 103) = 126 by omega]
  rw [singleMagnitude, halfMagnitude, if_neg (by omega), if_pos rfl, hiddenOne_add_fraction hlo hp, Nat.cast_mul,
    Nat.cast_pow, Nat.cast_ofNat, mul_assoc, hscale]
  ring

/-- A finite result: the input's sign, an exponent that is not 255 and 0 for a zero only, and the input's magnitude. -/
theorem f16To32_of_finite {h : BitVec 16} (he : h.extractLsb' 10 5 ≠ 31) :
    ∃ (e : BitVec 8) (f : BitVec 23), f16To32 h = h.extractLsb' 15 1 ++ e ++ f ∧ e ≠ 255 ∧ (e = 0 → f = 0) ∧
      singleMagnitude e.toNat f.toNat = halfMagnitude (h.extractLsb' 10 5).toNat (h.extractLsb' 0 10).toNat := by
  by_cases h0 : h.extractLsb' 10 5 = 0
  · by_cases hm : h.extractLsb' 0 10 = 0
    · refine ⟨0, 0, (f16To32_of_zero h0 hm).trans (sign_append_zero _), by decide, fun _ => rfl, ?_⟩
      simp [h0, hm, singleMagnitude, halfMagnitude]
    · obtain ⟨hlo, hhi, hp⟩ := leadingOne_spec hm
      have hexp : (BitVec.ofNat 8 (leadingOne (h.extractLsb' 0 10) + 103)).toNat =
          leadingOne (h.extractLsb' 0 10) + 103 := by
        rw [BitVec.toNat_ofNat, Nat.mod_eq_of_lt (by omega)]
      refine ⟨_, _, f16To32_of_subnormal h0 hm, fun hx => ?_, fun hx => ?_, ?_⟩
      · rw [hx] at hexp
        change 255 = _ at hexp
        omega
      · rw [hx] at hexp
        change 0 = _ at hexp
        omega
      · rw [hexp, toNat_subnormalFraction hlo hhi hp, singleMagnitude_of_subnormal hlo hp, h0]
        rfl
  · have hrange : 1 ≤ (h.extractLsb' 10 5).toNat ∧ (h.extractLsb' 10 5).toNat ≤ 30 := by bv_omega
    obtain ⟨hlo, hhi⟩ := hrange
    refine ⟨_, _, f16To32_of_normal hlo hhi, by bv_omega, fun hx => ?_, ?_⟩
    · bv_omega
    · rw [toNat_mantissa_append, BitVec.toNat_ofNat, Nat.mod_eq_of_lt (by omega), singleMagnitude_of_normal hlo]

/-! ### The conversion undone (rule R178) -/

/-- A binary16 from the fields of the binary32 it was converted to: an exponent of 103 to 112 is a subnormal's, whose
mantissa is the hidden 1 and the fraction moved back down. -/
def halfOfFields (sgn : BitVec 1) (e : BitVec 8) (f : BitVec 23) : BitVec 16 :=
  if e = 0 then sgn ++ 0#5 ++ 0#10
  else if e.toNat ≤ 112 then sgn ++ 0#5 ++ BitVec.ofNat 10 ((2 ^ 23 + f.toNat) / 2 ^ (126 - e.toNat))
  else if e = 255 then sgn ++ 31#5 ++ f.extractLsb' 13 10
  else sgn ++ BitVec.ofNat 5 (e.toNat - 112) ++ f.extractLsb' 13 10

/-- The inverse of F16TO32 on its results. -/
def halfOfSingle (f : Word32) : BitVec 16 :=
  halfOfFields (f.extractLsb' 31 1) (f.extractLsb' 23 8) (f.extractLsb' 0 23)

theorem halfOfSingle_append (sgn : BitVec 1) (e : BitVec 8) (f : BitVec 23) :
    halfOfSingle (sgn ++ e ++ f) = halfOfFields sgn e f := by
  rw [halfOfSingle, single_sign, single_exponent, single_fraction]

theorem halfOfFields_subnormal (sgn : BitVec 1) {m : BitVec 10} (hm : m ≠ 0) :
    halfOfFields sgn (BitVec.ofNat 8 (leadingOne m + 103))
      (BitVec.ofNat 23 ((m.toNat - 2 ^ leadingOne m) * 2 ^ (23 - leadingOne m))) = sgn ++ 0#5 ++ m := by
  obtain ⟨hlo, hhi, hp⟩ := leadingOne_spec hm
  have hexp : (BitVec.ofNat 8 (leadingOne m + 103)).toNat = leadingOne m + 103 := by
    rw [BitVec.toNat_ofNat, Nat.mod_eq_of_lt (by omega)]
  have hne : BitVec.ofNat 8 (leadingOne m + 103) ≠ 0 := fun hx => by
    rw [hx] at hexp
    change 0 = _ at hexp
    omega
  rw [halfOfFields, if_neg hne, hexp, if_pos (by omega), toNat_subnormalFraction hlo hhi hp,
    hiddenOne_add_fraction hlo hp, show 126 - (leadingOne m + 103) = 23 - leadingOne m by omega,
    Nat.mul_div_cancel _ (Nat.two_pow_pos _), BitVec.ofNat_toNat, BitVec.setWidth_eq]

theorem halfOfFields_normal (sgn : BitVec 1) {e : BitVec 5} (hlo : 1 ≤ e.toNat) (hhi : e.toNat ≤ 30) (m : BitVec 10) :
    halfOfFields sgn (BitVec.ofNat 8 (e.toNat + 112)) (m ++ 0#13) = sgn ++ e ++ m := by
  have hexp : (BitVec.ofNat 8 (e.toNat + 112)).toNat = e.toNat + 112 := by
    rw [BitVec.toNat_ofNat, Nat.mod_eq_of_lt (by omega)]
  rw [halfOfFields, if_neg (by bv_omega), hexp, if_neg (by omega), if_neg (by bv_omega), Nat.add_sub_cancel,
    BitVec.ofNat_toNat, BitVec.setWidth_eq, extractLsb'_mantissa_append]

theorem halfOfFields_infinity_or_nan (sgn : BitVec 1) (m : BitVec 10) :
    halfOfFields sgn 255#8 (m ++ 0#13) = sgn ++ 31#5 ++ m := by
  rw [halfOfFields, if_neg (by decide), if_neg (by decide), if_pos (by rfl), extractLsb'_mantissa_append]

/-- Every input can be read back off its result. -/
theorem halfOfSingle_f16To32 (h : BitVec 16) : halfOfSingle (f16To32 h) = h := by
  refine Eq.trans ?_ (half_fields h)
  by_cases h0 : h.extractLsb' 10 5 = 0
  · by_cases hm : h.extractLsb' 0 10 = 0
    · rw [f16To32_of_zero h0 hm, sign_append_zero, halfOfSingle_append, h0, hm]
      rfl
    · rw [f16To32_of_subnormal h0 hm, halfOfSingle_append, halfOfFields_subnormal _ hm, h0]
      rfl
  by_cases h31 : h.extractLsb' 10 5 = 31
  · rw [f16To32_of_infinity_or_nan h31, halfOfSingle_append, halfOfFields_infinity_or_nan, h31]
    rfl
  · have hlo : 1 ≤ (h.extractLsb' 10 5).toNat := by bv_omega
    have hhi : (h.extractLsb' 10 5).toNat ≤ 30 := by bv_omega
    rw [f16To32_of_normal hlo hhi, halfOfSingle_append, halfOfFields_normal _ hlo hhi]

end Sys2Proof.Machine

namespace Sys2Proof.Proofs
open Sys2Proof.Machine

/-- Settles O39: an exponent of 1 to 30 is neither of the two ends. -/
theorem f16Normal : Obligations.F16Normal := by
  intro s h hlo hhi
  rw [exec_f16to32, f16To32_of_normal hlo hhi]
  rfl

/-- Settles O40: the place given is the one the model finds. -/
theorem f16Subnormal : Obligations.F16Subnormal := by
  intro s h p he hlo hhi
  have hm : h.extractLsb' 0 10 ≠ 0 := by
    intro hzero
    rw [hzero] at hlo
    exact absurd hlo (Nat.not_le.mpr (Nat.two_pow_pos p))
  rw [exec_f16to32, f16To32_of_subnormal he hm, leadingOne_eq hlo hhi]
  rfl

/-- Settles O41: the mantissa is not an infinity's. -/
theorem f16NaN : Obligations.F16NaN := by
  intro s h he hm
  rw [exec_f16to32, f16To32_of_nan he hm]
  rfl

/-- Settles O42: the magnitude is kept in each finite case, and the sign bit is the input's. -/
theorem f16IsExact : Obligations.F16IsExact := by
  intro h he
  obtain ⟨e, f, hfields, hfinite, hzero, hmag⟩ := f16To32_of_finite he
  rw [singleValue_eq, halfValue_eq, hfields, single_msb, single_exponent, single_fraction, msb_half_sign, hmag]
  exact ⟨rfl, rfl, hfinite, hzero⟩

/-- Settles O43: the conversion has a left inverse. -/
theorem f16IsInjective : Obligations.F16IsInjective :=
  fun _ _ heq => Function.LeftInverse.injective halfOfSingle_f16To32 heq

end Sys2Proof.Proofs
end

section
/-! PROOFS. The table's rows that are no operations (rules R48, R204 and R199 to R201; assumptions 7 and 8): the command
payloads and the command class as renderings, the telemetry classes as TELEM_DECODE. -/

namespace Sys2Proof.Machine

/-! ### Rows that render a command (rule R204) -/

theorem exec_payloadSpeedControl (node : Ident) (speed : Word32) (s : State) :
    exec (.payloadSpeedControl node speed) s = exec (.cmdSpeed node speed) s := rfl

theorem exec_payloadStop (node : Ident) (s : State) : exec (.payloadStop node) s = exec (.cmdStop node) s := rfl

theorem exec_payloadReset (node : Ident) (s : State) : exec (.payloadReset node) s = exec (.cmdReset node) s := rfl

theorem exec_classCommand (node : BitVec 7) (data : Bus) (s : State) :
    exec (.classCommand node data) s = driveCommand (node.setWidth 11) data s := rfl

/-! ### Rows that decode telemetry (rules R199 to R201) -/

theorem exec_classTelemetryPrimary (node : BitVec 7) (len : Len) (data : Bus) (s : State) :
    exec (.classTelemetryPrimary node len data) s =
      exec (.telemDecode (identOf Config.classTelemetry node) len data) s := rfl

theorem exec_classReserved280 (node : BitVec 7) (len : Len) (data : Bus) (s : State) :
    exec (.classReserved280 node len data) s =
      exec (.telemDecode (identOf Config.classReserved280 node) len data) s := rfl

theorem exec_classReserved380 (node : BitVec 7) (len : Len) (data : Bus) (s : State) :
    exec (.classReserved380 node len data) s =
      exec (.telemDecode (identOf Config.classReserved380 node) len data) s := rfl

theorem exec_classReserved480 (node : BitVec 7) (len : Len) (data : Bus) (s : State) :
    exec (.classReserved480 node len data) s =
      exec (.telemDecode (identOf Config.classReserved480 node) len data) s := rfl

/-! ### The identifier of a class and a node as a number (rule R76) -/

/-- A class is a multiple of 0x80, so a node is added to it without a reduction. -/
theorem toNat_identOf {cls : Ident} (hcls : cls.toNat % 0x80 = 0) (node : BitVec 7) :
    (identOf cls node).toNat = cls.toNat + node.toNat := by
  rw [identOf, toNat_composeIdent_of_fields (toNat_node_le node) hcls, BitVec.toNat_setWidth_of_le (by omega),
    Nat.add_comm]

theorem identOf_eq_ofNat {cls : Ident} (hcls : cls.toNat % 0x80 = 0) (node : BitVec 7) :
    identOf cls node = BitVec.ofNat 11 (cls.toNat + node.toNat) := by
  rw [← toNat_identOf hcls, BitVec.ofNat_toNat, BitVec.setWidth_eq]

/-- The quotient by 0x80 is the class's, whatever the node. -/
theorem toNat_identOf_div {cls : Ident} (hcls : cls.toNat % 0x80 = 0) (node : BitVec 7) :
    (identOf cls node).toNat / 0x80 = cls.toNat / 0x80 := by
  have hnode : node.toNat < 2 ^ 7 := node.isLt
  rw [toNat_identOf hcls]
  omega

/-- Class 0x180 gives a record just when the length is 8 (rules R199, R200 and R203). -/
theorem telValidOf_telemetry {id : Ident} (hcls : id.toNat / 0x80 = 3) (len : Len) (data : Bus) :
    telValidOf (telemOutcome id len data) = (len == 8) := by
  by_cases hlen : len = 8
  · rw [hlen, telemOutcome_eq_record hcls]
    rfl
  · rw [telemOutcome_eq_wrongLength hcls hlen, beq_false_of_ne hlen]
    rfl

/-- The reserved classes are the quotients 5, 7 and 9 (rule R201). -/
theorem exec_telemDecode_reserved {cls : Ident} (hcls : cls.toNat % 0x80 = 0)
    (hreserved : cls.toNat / 0x80 ∈ [5, 7, 9]) (node : BitVec 7) (len : Len) (data : Bus) (s : State) :
    exec (.telemDecode (identOf cls node) len data) s =
      .next { s with out := { telValid := some false, telStatus := some 2 } } := by
  rw [← toNat_identOf_div hcls node] at hreserved
  have hne : (identOf cls node).toNat / 0x80 ≠ 3 := fun h => by
    rw [h] at hreserved
    exact absurd hreserved (by decide)
  rw [exec_telemDecode, telemOutcome_of_ne_telemetry hne, if_pos hreserved]
  rfl

end Sys2Proof.Machine

namespace Sys2Proof.Proofs
open Sys2Proof.Machine

/-- Settles O53: each payload row is its command operation, and a command changes the outputs only. -/
theorem payloadRowsRenderTheirCommand : Obligations.PayloadRowsRenderTheirCommand := fun s node speed =>
  ⟨⟨_, exec_payloadSpeedControl node speed s, exec_cmdSpeed node speed s, rfl, rfl⟩,
    ⟨_, exec_payloadStop node s, exec_cmdStop node s, rfl, rfl⟩,
    ⟨_, exec_payloadReset node s, exec_cmdReset node s, rfl, rfl⟩⟩

/-- Settles O54: the common law of the commands at the node of the identifier. -/
theorem commandClassRendersPayload : Obligations.CommandClassRendersPayload := by
  intro s node data
  have hid : BitVec.ofNat 11 (0x200 + node.toNat) = node.setWidth 11 + 0x200 :=
    (identOf_eq_ofNat (cls := Config.classCommand) (by decide) node).symm
  rw [exec_classCommand, hid]
  exact driveCommand_renders _ data s

/-- Settles O55: class 0x180 decodes by its length, the three reserved classes give no record. -/
theorem telemetryClassRowsDecode : Obligations.TelemetryClassRowsDecode := by
  intro s node len data
  have hid : identOf Config.classTelemetry node = BitVec.ofNat 11 (0x180 + node.toNat) := identOf_eq_ofNat (by decide) node
  have hcls : (identOf Config.classTelemetry node).toNat / 0x80 = 3 := toNat_identOf_div (by decide) node
  refine ⟨⟨_, exec_classTelemetryPrimary node len data s, hid ▸ exec_telemDecode _ len data s, ?_, rfl, rfl⟩, ?_, ?_, ?_⟩
  · exact congrArg some (telValidOf_telemetry hcls len data)
  · exact (exec_classReserved280 node len data s).trans
      (exec_telemDecode_reserved (by decide) (by decide) node len data s)
  · exact (exec_classReserved380 node len data s).trans
      (exec_telemDecode_reserved (by decide) (by decide) node len data s)
  · exact (exec_classReserved480 node len data s).trans
      (exec_telemDecode_reserved (by decide) (by decide) node len data s)

end Sys2Proof.Proofs
end
